-- ==== Sys2Proof/Word.lean ====
section
/-! DEFINITION. The word types of the core (00_scope.md R8, R9): 8-bit data, 16-bit addresses and program counter. -/

namespace Sys2Proof

/-- `u8`: a register, the status byte or a memory cell (R8, R9). -/
abbrev Byte := BitVec 8

/-- `u16`: the program counter, an address or the resolver's raw value (R8, R9). -/
abbrev Word := BitVec 16

end Sys2Proof
end

