-- ==== Sys2Proof/Syntax.lean ====
section
/-! DEFINITION. The instruction set as syntax: the 57 instructions of 00_scope.md R3 (56 mnemonics and `Invalid`), each with
the operand forms of its rows of spec/opcode_table.json. -/

namespace Sys2Proof

/-- The addressing modes (R2), in the source's order. -/
inductive AddrMode
  | implicit | accumulator | immediate | zeroPage | zeroPageX | zeroPageY | relative
  | absolute | absoluteX | absoluteY | indirect | indirectX | indirectY | invalid
  deriving DecidableEq, Repr

/-- The 57 values of the instruction type (R3), in the source's category order. -/
inductive Mnemonic
  | lda | ldx | ldy | tax | tay | tsx | txa | txs | tya
  | sta | stx | sty
  | adc | sbc
  | and | ora | eor | bit
  | asl | lsr | rol | ror
  | inc | dec | inx | iny | dex | dey
  | cmp | cpx | cpy
  | bcc | bcs | beq | bne | bpl | bmi | bvc | bvs
  | jmp | jsr | rts
  | pha | php | pla | plp
  | clc | cld | cli | clv | sec | sed | sei
  | brk | rti | nop
  | invalid
  deriving DecidableEq, Repr

/-- A memory operand: the mode with its operand byte or word (R103), for the modes that have an effective address
(R140 to R146; Indirect is JMP's alone). -/
inductive MemOperand
  | zeroPage (addr : Byte)
  | zeroPageX (base : Byte)
  | zeroPageY (base : Byte)
  | absolute (addr : Word)
  | absoluteX (base : Word)
  | absoluteY (base : Word)
  | indirectX (base : Byte)
  | indirectY (ptr : Byte)
  deriving DecidableEq, Repr

/-- The operand of an instruction that reads a byte (R150). -/
inductive ReadOperand
  | immediate (value : Byte)
  | mem (m : MemOperand)
  deriving DecidableEq, Repr

/-- The location a shift or rotate reads and writes (R151). -/
inductive Location
  | accumulator
  | mem (m : MemOperand)
  deriving DecidableEq, Repr

/-- The target of JMP (R520). -/
inductive JumpTarget
  | absolute (target : Word)
  | indirect (ptr : Word)
  deriving DecidableEq, Repr

/-- The instructions. A constructor stands for every row of spec/opcode_table.json with its mnemonic; its fields hold the
row's mode and operand bytes. `Instr.wf` says which modes have a row. -/
inductive Instr
  -- 41_load_store_transfer.md
  | lda (o : ReadOperand)
  | ldx (o : ReadOperand)
  | ldy (o : ReadOperand)
  | sta (m : MemOperand)
  | stx (m : MemOperand)
  | sty (m : MemOperand)
  | tax
  | tay
  | tsx
  | txa
  | txs
  | tya
  -- 42_arithmetic_logic.md
  | adc (o : ReadOperand)
  | sbc (o : ReadOperand)
  | and (o : ReadOperand)
  | ora (o : ReadOperand)
  | eor (o : ReadOperand)
  | bit (m : MemOperand)
  -- 43_shift_incdec.md
  | asl (l : Location)
  | lsr (l : Location)
  | rol (l : Location)
  | ror (l : Location)
  | inc (m : MemOperand)
  | dec (m : MemOperand)
  | inx
  | iny
  | dex
  | dey
  -- 44_compare_branch_jump.md
  | cmp (o : ReadOperand)
  | cpx (o : ReadOperand)
  | cpy (o : ReadOperand)
  | bcc (offset : Byte)
  | bcs (offset : Byte)
  | beq (offset : Byte)
  | bne (offset : Byte)
  | bpl (offset : Byte)
  | bmi (offset : Byte)
  | bvc (offset : Byte)
  | bvs (offset : Byte)
  | jmp (t : JumpTarget)
  | jsr (target : Word)
  | rts
  -- 45_stack_flags_system.md
  | pha
  | php
  | pla
  | plp
  | clc
  | cld
  | cli
  | clv
  | sec
  | sed
  | sei
  | brk
  | rti
  | nop
  /-- One of the 105 undefined opcode bytes (R112, R620). -/
  | invalid (opcode : Byte)
  deriving DecidableEq, Repr

def MemOperand.mode : MemOperand → AddrMode
  | .zeroPage _ => .zeroPage
  | .zeroPageX _ => .zeroPageX
  | .zeroPageY _ => .zeroPageY
  | .absolute _ => .absolute
  | .absoluteX _ => .absoluteX
  | .absoluteY _ => .absoluteY
  | .indirectX _ => .indirectX
  | .indirectY _ => .indirectY

def ReadOperand.mode : ReadOperand → AddrMode
  | .immediate _ => .immediate
  | .mem m => m.mode

def Location.mode : Location → AddrMode
  | .accumulator => .accumulator
  | .mem m => m.mode

def JumpTarget.mode : JumpTarget → AddrMode
  | .absolute _ => .absolute
  | .indirect _ => .indirect

/-- The addressing mode of an instruction (R103). -/
def Instr.mode : Instr → AddrMode
  | .lda o | .ldx o | .ldy o => o.mode
  | .sta m | .stx m | .sty m => m.mode
  | .tax | .tay | .tsx | .txa | .txs | .tya => .implicit
  | .adc o | .sbc o | .and o | .ora o | .eor o => o.mode
  | .bit m => m.mode
  | .asl l | .lsr l | .rol l | .ror l => l.mode
  | .inc m | .dec m => m.mode
  | .inx | .iny | .dex | .dey => .implicit
  | .cmp o | .cpx o | .cpy o => o.mode
  | .bcc _ | .bcs _ | .beq _ | .bne _ | .bpl _ | .bmi _ | .bvc _ | .bvs _ => .relative
  | .jmp t => t.mode
  | .jsr _ => .absolute
  | .rts | .pha | .php | .pla | .plp => .implicit
  | .clc | .cld | .cli | .clv | .sec | .sed | .sei => .implicit
  | .brk | .rti | .nop => .implicit
  | .invalid _ => .invalid

/-- The mnemonic of an instruction (R3). -/
def Instr.mnemonic : Instr → Mnemonic
  | .lda _ => .lda
  | .ldx _ => .ldx
  | .ldy _ => .ldy
  | .sta _ => .sta
  | .stx _ => .stx
  | .sty _ => .sty
  | .tax => .tax
  | .tay => .tay
  | .tsx => .tsx
  | .txa => .txa
  | .txs => .txs
  | .tya => .tya
  | .adc _ => .adc
  | .sbc _ => .sbc
  | .and _ => .and
  | .ora _ => .ora
  | .eor _ => .eor
  | .bit _ => .bit
  | .asl _ => .asl
  | .lsr _ => .lsr
  | .rol _ => .rol
  | .ror _ => .ror
  | .inc _ => .inc
  | .dec _ => .dec
  | .inx => .inx
  | .iny => .iny
  | .dex => .dex
  | .dey => .dey
  | .cmp _ => .cmp
  | .cpx _ => .cpx
  | .cpy _ => .cpy
  | .bcc _ => .bcc
  | .bcs _ => .bcs
  | .beq _ => .beq
  | .bne _ => .bne
  | .bpl _ => .bpl
  | .bmi _ => .bmi
  | .bvc _ => .bvc
  | .bvs _ => .bvs
  | .jmp _ => .jmp
  | .jsr _ => .jsr
  | .rts => .rts
  | .pha => .pha
  | .php => .php
  | .pla => .pla
  | .plp => .plp
  | .clc => .clc
  | .cld => .cld
  | .cli => .cli
  | .clv => .clv
  | .sec => .sec
  | .sed => .sed
  | .sei => .sei
  | .brk => .brk
  | .rti => .rti
  | .nop => .nop
  | .invalid _ => .invalid

end Sys2Proof
end

