-- ==== Sys2Proof/Decode.lean ====
section
/-! DEFINITION. The decoder (30_encoding.md R100 to R113), total on any bytes, and after it the encoder. -/

namespace Sys2Proof

/-! ### Byte order and extension (R9, R10, R74) -/

/-- `{hi, lo}` (R9): the word whose high byte is `hi`. -/
def joinBytes (hi lo : Byte) : Word := hi ++ lo

/-- `w[7:0]`. -/
def lowByte (w : Word) : Byte := w.extractLsb' 0 8

/-- `w[15:8]`. -/
def highByte (w : Word) : Byte := w.extractLsb' 8 8

/-- `zext_16` (R10). -/
def zext (b : Byte) : Word := b.setWidth 16

/-- `sext_16` (R10). -/
def sext (b : Byte) : Word := b.signExtend 16

/-! ### The opcode map -/

/-- The cell of an undefined opcode (R105, R112). -/
def undef : Mnemonic × AddrMode := (.invalid, .invalid)

/-- Opcodes 0x00 to 0x0F (R110, row 0x). -/
def opcodeRow0 : List (Mnemonic × AddrMode) :=
  [(.brk, .implicit), (.ora, .indirectX), undef, undef,
   undef, (.ora, .zeroPage), (.asl, .zeroPage), undef,
   (.php, .implicit), (.ora, .immediate), (.asl, .accumulator), undef,
   undef, (.ora, .absolute), (.asl, .absolute), undef]

/-- Opcodes 0x10 to 0x1F (R110, row 1x). -/
def opcodeRow1 : List (Mnemonic × AddrMode) :=
  [(.bpl, .relative), (.ora, .indirectY), undef, undef,
   undef, (.ora, .zeroPageX), (.asl, .zeroPageX), undef,
   (.clc, .implicit), (.ora, .absoluteY), undef, undef,
   undef, (.ora, .absoluteX), (.asl, .absoluteX), undef]

/-- Opcodes 0x20 to 0x2F (R110, row 2x). -/
def opcodeRow2 : List (Mnemonic × AddrMode) :=
  [(.jsr, .absolute), (.and, .indirectX), undef, undef,
   (.bit, .zeroPage), (.and, .zeroPage), (.rol, .zeroPage), undef,
   (.plp, .implicit), (.and, .immediate), (.rol, .accumulator), undef,
   (.bit, .absolute), (.and, .absolute), (.rol, .absolute), undef]

/-- Opcodes 0x30 to 0x3F (R110, row 3x). -/
def opcodeRow3 : List (Mnemonic × AddrMode) :=
  [(.bmi, .relative), (.and, .indirectY), undef, undef,
   undef, (.and, .zeroPageX), (.rol, .zeroPageX), undef,
   (.sec, .implicit), (.and, .absoluteY), undef, undef,
   undef, (.and, .absoluteX), (.rol, .absoluteX), undef]

/-- Opcodes 0x40 to 0x4F (R110, row 4x). -/
def opcodeRow4 : List (Mnemonic × AddrMode) :=
  [(.rti, .implicit), (.eor, .indirectX), undef, undef,
   undef, (.eor, .zeroPage), (.lsr, .zeroPage), undef,
   (.pha, .implicit), (.eor, .immediate), (.lsr, .accumulator), undef,
   (.jmp, .absolute), (.eor, .absolute), (.lsr, .absolute), undef]

/-- Opcodes 0x50 to 0x5F (R110, row 5x). -/
def opcodeRow5 : List (Mnemonic × AddrMode) :=
  [(.bvc, .relative), (.eor, .indirectY), undef, undef,
   undef, (.eor, .zeroPageX), (.lsr, .zeroPageX), undef,
   (.cli, .implicit), (.eor, .absoluteY), undef, undef,
   undef, (.eor, .absoluteX), (.lsr, .absoluteX), undef]

/-- Opcodes 0x60 to 0x6F (R110, row 6x). -/
def opcodeRow6 : List (Mnemonic × AddrMode) :=
  [(.rts, .implicit), (.adc, .indirectX), undef, undef,
   undef, (.adc, .zeroPage), (.ror, .zeroPage), undef,
   (.pla, .implicit), (.adc, .immediate), (.ror, .accumulator), undef,
   (.jmp, .indirect), (.adc, .absolute), (.ror, .absolute), undef]

/-- Opcodes 0x70 to 0x7F (R110, row 7x). -/
def opcodeRow7 : List (Mnemonic × AddrMode) :=
  [(.bvs, .relative), (.adc, .indirectY), undef, undef,
   undef, (.adc, .zeroPageX), (.ror, .zeroPageX), undef,
   (.sei, .implicit), (.adc, .absoluteY), undef, undef,
   undef, (.adc, .absoluteX), (.ror, .absoluteX), undef]

/-- Opcodes 0x80 to 0x8F (R110, row 8x). -/
def opcodeRow8 : List (Mnemonic × AddrMode) :=
  [undef, (.sta, .indirectX), undef, undef,
   (.sty, .zeroPage), (.sta, .zeroPage), (.stx, .zeroPage), undef,
   (.dey, .implicit), undef, (.txa, .implicit), undef,
   (.sty, .absolute), (.sta, .absolute), (.stx, .absolute), undef]

/-- Opcodes 0x90 to 0x9F (R110, row 9x). -/
def opcodeRow9 : List (Mnemonic × AddrMode) :=
  [(.bcc, .relative), (.sta, .indirectY), undef, undef,
   (.sty, .zeroPageX), (.sta, .zeroPageX), (.stx, .zeroPageY), undef,
   (.tya, .implicit), (.sta, .absoluteY), (.txs, .implicit), undef,
   undef, (.sta, .absoluteX), undef, undef]

/-- Opcodes 0xA0 to 0xAF (R110, row Ax). -/
def opcodeRowA : List (Mnemonic × AddrMode) :=
  [(.ldy, .immediate), (.lda, .indirectX), (.ldx, .immediate), undef,
   (.ldy, .zeroPage), (.lda, .zeroPage), (.ldx, .zeroPage), undef,
   (.tay, .implicit), (.lda, .immediate), (.tax, .implicit), undef,
   (.ldy, .absolute), (.lda, .absolute), (.ldx, .absolute), undef]

/-- Opcodes 0xB0 to 0xBF (R110, row Bx). -/
def opcodeRowB : List (Mnemonic × AddrMode) :=
  [(.bcs, .relative), (.lda, .indirectY), undef, undef,
   (.ldy, .zeroPageX), (.lda, .zeroPageX), (.ldx, .zeroPageY), undef,
   (.clv, .implicit), (.lda, .absoluteY), (.tsx, .implicit), undef,
   (.ldy, .absoluteX), (.lda, .absoluteX), (.ldx, .absoluteY), undef]

/-- Opcodes 0xC0 to 0xCF (R110, row Cx). -/
def opcodeRowC : List (Mnemonic × AddrMode) :=
  [(.cpy, .immediate), (.cmp, .indirectX), undef, undef,
   (.cpy, .zeroPage), (.cmp, .zeroPage), (.dec, .zeroPage), undef,
   (.iny, .implicit), (.cmp, .immediate), (.dex, .implicit), undef,
   (.cpy, .absolute), (.cmp, .absolute), (.dec, .absolute), undef]

/-- Opcodes 0xD0 to 0xDF (R110, row Dx). -/
def opcodeRowD : List (Mnemonic × AddrMode) :=
  [(.bne, .relative), (.cmp, .indirectY), undef, undef,
   undef, (.cmp, .zeroPageX), (.dec, .zeroPageX), undef,
   (.cld, .implicit), (.cmp, .absoluteY), undef, undef,
   undef, (.cmp, .absoluteX), (.dec, .absoluteX), undef]

/-- Opcodes 0xE0 to 0xEF (R110, row Ex). -/
def opcodeRowE : List (Mnemonic × AddrMode) :=
  [(.cpx, .immediate), (.sbc, .indirectX), undef, undef,
   (.cpx, .zeroPage), (.sbc, .zeroPage), (.inc, .zeroPage), undef,
   (.inx, .implicit), (.sbc, .immediate), (.nop, .implicit), undef,
   (.cpx, .absolute), (.sbc, .absolute), (.inc, .absolute), undef]

/-- Opcodes 0xF0 to 0xFF (R110, row Fx). -/
def opcodeRowF : List (Mnemonic × AddrMode) :=
  [(.beq, .relative), (.sbc, .indirectY), undef, undef,
   undef, (.sbc, .zeroPageX), (.inc, .zeroPageX), undef,
   (.sed, .implicit), (.sbc, .absoluteY), undef, undef,
   undef, (.sbc, .absoluteX), (.inc, .absoluteX), undef]

/-- The opcode map of R110: a row by the high nibble, a column by the low nibble. The byte values are the spec's from general
knowledge (D23, log entry 5). -/
def opcodeTable : List (List (Mnemonic × AddrMode)) :=
  [opcodeRow0, opcodeRow1, opcodeRow2, opcodeRow3, opcodeRow4, opcodeRow5, opcodeRow6, opcodeRow7,
   opcodeRow8, opcodeRow9, opcodeRowA, opcodeRowB, opcodeRowC, opcodeRowD, opcodeRowE, opcodeRowF]

/-- `decode(opcode) -> (Instruction, AddressingMode)`, total (R101, R105, R133). -/
def opcodeMap (op : Byte) : Mnemonic × AddrMode := (opcodeTable.getD (op.toNat / 16) []).getD (op.toNat % 16) undef

/-- The operand bytes of a mode (R100): 0, 1 or 2; mode Invalid has none (D1). -/
def AddrMode.width : AddrMode → Nat
  | .implicit | .accumulator | .invalid => 0
  | .immediate | .zeroPage | .zeroPageX | .zeroPageY | .relative | .indirectX | .indirectY => 1
  | .absolute | .absoluteX | .absoluteY | .indirect => 2

/-! ### From (mnemonic, mode, raw) to an instruction (R102, R103) -/

def AddrMode.memOperand (mode : AddrMode) (raw : Word) : Option MemOperand :=
  match mode with
  | .zeroPage => some (.zeroPage (lowByte raw))
  | .zeroPageX => some (.zeroPageX (lowByte raw))
  | .zeroPageY => some (.zeroPageY (lowByte raw))
  | .absolute => some (.absolute raw)
  | .absoluteX => some (.absoluteX raw)
  | .absoluteY => some (.absoluteY raw)
  | .indirectX => some (.indirectX (lowByte raw))
  | .indirectY => some (.indirectY (lowByte raw))
  | .implicit | .accumulator | .immediate | .relative | .indirect | .invalid => none

def AddrMode.readOperand (mode : AddrMode) (raw : Word) : Option ReadOperand :=
  if mode = .immediate then some (.immediate (lowByte raw)) else (mode.memOperand raw).map .mem

def AddrMode.location (mode : AddrMode) (raw : Word) : Option Location :=
  if mode = .accumulator then some .accumulator else (mode.memOperand raw).map .mem

def AddrMode.jumpTarget (mode : AddrMode) (raw : Word) : Option JumpTarget :=
  match mode with
  | .absolute => some (.absolute raw)
  | .indirect => some (.indirect raw)
  | _ => none

/-- An instruction without operands. -/
def AddrMode.noOperand (mode : AddrMode) (i : Instr) : Option Instr :=
  if mode = .implicit then some i else none

/-- A branch: the raw value's low byte is the offset (R147). -/
def AddrMode.offset (mode : AddrMode) (raw : Word) : Option Byte :=
  if mode = .relative then some (lowByte raw) else none

/-- The instruction that a mnemonic, a mode and the resolver's raw value stand for, if the mnemonic has that shape of mode.
`op` is the opcode byte, which an `Invalid` carries. -/
def instrOfParts (mn : Mnemonic) (mode : AddrMode) (op : Byte) (raw : Word) : Option Instr :=
  match mn with
  | .lda => (mode.readOperand raw).map .lda
  | .ldx => (mode.readOperand raw).map .ldx
  | .ldy => (mode.readOperand raw).map .ldy
  | .sta => (mode.memOperand raw).map .sta
  | .stx => (mode.memOperand raw).map .stx
  | .sty => (mode.memOperand raw).map .sty
  | .tax => mode.noOperand .tax
  | .tay => mode.noOperand .tay
  | .tsx => mode.noOperand .tsx
  | .txa => mode.noOperand .txa
  | .txs => mode.noOperand .txs
  | .tya => mode.noOperand .tya
  | .adc => (mode.readOperand raw).map .adc
  | .sbc => (mode.readOperand raw).map .sbc
  | .and => (mode.readOperand raw).map .and
  | .ora => (mode.readOperand raw).map .ora
  | .eor => (mode.readOperand raw).map .eor
  | .bit => (mode.memOperand raw).map .bit
  | .asl => (mode.location raw).map .asl
  | .lsr => (mode.location raw).map .lsr
  | .rol => (mode.location raw).map .rol
  | .ror => (mode.location raw).map .ror
  | .inc => (mode.memOperand raw).map .inc
  | .dec => (mode.memOperand raw).map .dec
  | .inx => mode.noOperand .inx
  | .iny => mode.noOperand .iny
  | .dex => mode.noOperand .dex
  | .dey => mode.noOperand .dey
  | .cmp => (mode.readOperand raw).map .cmp
  | .cpx => (mode.readOperand raw).map .cpx
  | .cpy => (mode.readOperand raw).map .cpy
  | .bcc => (mode.offset raw).map .bcc
  | .bcs => (mode.offset raw).map .bcs
  | .beq => (mode.offset raw).map .beq
  | .bne => (mode.offset raw).map .bne
  | .bpl => (mode.offset raw).map .bpl
  | .bmi => (mode.offset raw).map .bmi
  | .bvc => (mode.offset raw).map .bvc
  | .bvs => (mode.offset raw).map .bvs
  | .jmp => (mode.jumpTarget raw).map .jmp
  | .jsr => if mode = .absolute then some (.jsr raw) else none
  | .rts => mode.noOperand .rts
  | .pha => mode.noOperand .pha
  | .php => mode.noOperand .php
  | .pla => mode.noOperand .pla
  | .plp => mode.noOperand .plp
  | .clc => mode.noOperand .clc
  | .cld => mode.noOperand .cld
  | .cli => mode.noOperand .cli
  | .clv => mode.noOperand .clv
  | .sec => mode.noOperand .sec
  | .sed => mode.noOperand .sed
  | .sei => mode.noOperand .sei
  | .brk => mode.noOperand .brk
  | .rti => mode.noOperand .rti
  | .nop => mode.noOperand .nop
  | .invalid => if mode = .invalid then some (.invalid op) else none

/-- The instruction of an opcode byte and the raw value resolved after it (R133, R135). The table only yields pairs that have
an instruction (R105; `instrOfParts_opcodeMap` of Laws/Decode.lean), so the default is never taken. -/
def instrOf (op : Byte) (raw : Word) : Instr :=
  (instrOfParts (opcodeMap op).1 (opcodeMap op).2 op raw).getD (.invalid op)

/-! ### Decoding bytes -/

/-- Why bytes are no instruction: none is given, or the operand bytes that the opcode's mode consumes are missing. -/
inductive DecodeError
  | noOpcode
  | missingOperand (opcode : Byte)
  deriving DecidableEq, Repr

/-- What decoding answers: an instruction and the bytes after it, or a rejection by name. -/
inductive DecodeResult
  | decoded (i : Instr) (rest : List Byte)
  | rejected (why : DecodeError)
  deriving DecidableEq, Repr

/-- The resolver on a list of bytes (R102, R134): the raw value and the bytes after the operand. -/
def resolveBytes (width : Nat) (bytes : List Byte) : Option (Word × List Byte) :=
  match width, bytes with
  | 0, rest => some (0x0000#16, rest)
  | 1, b :: rest => some (zext b, rest)
  | _ + 2, lo :: hi :: rest => some (joinBytes hi lo, rest)
  | _, _ => none

/-- Decode the instruction at the head of `bytes` (R100, R113). All 256 opcode bytes decode; only a list that ends too soon is
rejected. -/
def decode (bytes : List Byte) : DecodeResult :=
  match bytes with
  | [] => .rejected .noOpcode
  | op :: rest =>
    match resolveBytes (opcodeMap op).2.width rest with
    | none => .rejected (.missingOperand op)
    | some (raw, rest') => .decoded (instrOf op raw) rest'

/-! ### Encoding -/

/-- The opcode bytes of each mnemonic by mode, from R111 (`decode` goes by R110: two tables of the spec, and the round trip of
the two says that they agree). -/
def opcodesOf : Mnemonic → List (AddrMode × Byte)
  | .lda => [(.immediate, 0xA9), (.zeroPage, 0xA5), (.zeroPageX, 0xB5), (.absolute, 0xAD),
      (.absoluteX, 0xBD), (.absoluteY, 0xB9), (.indirectX, 0xA1), (.indirectY, 0xB1)]
  | .ldx => [(.immediate, 0xA2), (.zeroPage, 0xA6), (.zeroPageY, 0xB6), (.absolute, 0xAE),
      (.absoluteY, 0xBE)]
  | .ldy => [(.immediate, 0xA0), (.zeroPage, 0xA4), (.zeroPageX, 0xB4), (.absolute, 0xAC),
      (.absoluteX, 0xBC)]
  | .sta => [(.zeroPage, 0x85), (.zeroPageX, 0x95), (.absolute, 0x8D), (.absoluteX, 0x9D),
      (.absoluteY, 0x99), (.indirectX, 0x81), (.indirectY, 0x91)]
  | .stx => [(.zeroPage, 0x86), (.zeroPageY, 0x96), (.absolute, 0x8E)]
  | .sty => [(.zeroPage, 0x84), (.zeroPageX, 0x94), (.absolute, 0x8C)]
  | .tax => [(.implicit, 0xAA)]
  | .tay => [(.implicit, 0xA8)]
  | .tsx => [(.implicit, 0xBA)]
  | .txa => [(.implicit, 0x8A)]
  | .txs => [(.implicit, 0x9A)]
  | .tya => [(.implicit, 0x98)]
  | .adc => [(.immediate, 0x69), (.zeroPage, 0x65), (.zeroPageX, 0x75), (.absolute, 0x6D),
      (.absoluteX, 0x7D), (.absoluteY, 0x79), (.indirectX, 0x61), (.indirectY, 0x71)]
  | .sbc => [(.immediate, 0xE9), (.zeroPage, 0xE5), (.zeroPageX, 0xF5), (.absolute, 0xED),
      (.absoluteX, 0xFD), (.absoluteY, 0xF9), (.indirectX, 0xE1), (.indirectY, 0xF1)]
  | .and => [(.immediate, 0x29), (.zeroPage, 0x25), (.zeroPageX, 0x35), (.absolute, 0x2D),
      (.absoluteX, 0x3D), (.absoluteY, 0x39), (.indirectX, 0x21), (.indirectY, 0x31)]
  | .ora => [(.immediate, 0x09), (.zeroPage, 0x05), (.zeroPageX, 0x15), (.absolute, 0x0D),
      (.absoluteX, 0x1D), (.absoluteY, 0x19), (.indirectX, 0x01), (.indirectY, 0x11)]
  | .eor => [(.immediate, 0x49), (.zeroPage, 0x45), (.zeroPageX, 0x55), (.absolute, 0x4D),
      (.absoluteX, 0x5D), (.absoluteY, 0x59), (.indirectX, 0x41), (.indirectY, 0x51)]
  | .bit => [(.zeroPage, 0x24), (.absolute, 0x2C)]
  | .asl => [(.accumulator, 0x0A), (.zeroPage, 0x06), (.zeroPageX, 0x16), (.absolute, 0x0E),
      (.absoluteX, 0x1E)]
  | .lsr => [(.accumulator, 0x4A), (.zeroPage, 0x46), (.zeroPageX, 0x56), (.absolute, 0x4E),
      (.absoluteX, 0x5E)]
  | .rol => [(.accumulator, 0x2A), (.zeroPage, 0x26), (.zeroPageX, 0x36), (.absolute, 0x2E),
      (.absoluteX, 0x3E)]
  | .ror => [(.accumulator, 0x6A), (.zeroPage, 0x66), (.zeroPageX, 0x76), (.absolute, 0x6E),
      (.absoluteX, 0x7E)]
  | .inc => [(.zeroPage, 0xE6), (.zeroPageX, 0xF6), (.absolute, 0xEE), (.absoluteX, 0xFE)]
  | .dec => [(.zeroPage, 0xC6), (.zeroPageX, 0xD6), (.absolute, 0xCE), (.absoluteX, 0xDE)]
  | .inx => [(.implicit, 0xE8)]
  | .iny => [(.implicit, 0xC8)]
  | .dex => [(.implicit, 0xCA)]
  | .dey => [(.implicit, 0x88)]
  | .cmp => [(.immediate, 0xC9), (.zeroPage, 0xC5), (.zeroPageX, 0xD5), (.absolute, 0xCD),
      (.absoluteX, 0xDD), (.absoluteY, 0xD9), (.indirectX, 0xC1), (.indirectY, 0xD1)]
  | .cpx => [(.immediate, 0xE0), (.zeroPage, 0xE4), (.absolute, 0xEC)]
  | .cpy => [(.immediate, 0xC0), (.zeroPage, 0xC4), (.absolute, 0xCC)]
  | .bcc => [(.relative, 0x90)]
  | .bcs => [(.relative, 0xB0)]
  | .beq => [(.relative, 0xF0)]
  | .bne => [(.relative, 0xD0)]
  | .bpl => [(.relative, 0x10)]
  | .bmi => [(.relative, 0x30)]
  | .bvc => [(.relative, 0x50)]
  | .bvs => [(.relative, 0x70)]
  | .jmp => [(.absolute, 0x4C), (.indirect, 0x6C)]
  | .jsr => [(.absolute, 0x20)]
  | .rts => [(.implicit, 0x60)]
  | .pha => [(.implicit, 0x48)]
  | .php => [(.implicit, 0x08)]
  | .pla => [(.implicit, 0x68)]
  | .plp => [(.implicit, 0x28)]
  | .clc => [(.implicit, 0x18)]
  | .cld => [(.implicit, 0xD8)]
  | .cli => [(.implicit, 0x58)]
  | .clv => [(.implicit, 0xB8)]
  | .sec => [(.implicit, 0x38)]
  | .sed => [(.implicit, 0xF8)]
  | .sei => [(.implicit, 0x78)]
  | .brk => [(.implicit, 0x00)]
  | .rti => [(.implicit, 0x40)]
  | .nop => [(.implicit, 0xEA)]
  | .invalid => []

/-- The operand bytes of a memory operand (R100, R102): the low byte of a word first. -/
def MemOperand.bytes : MemOperand → List Byte
  | .zeroPage b | .zeroPageX b | .zeroPageY b | .indirectX b | .indirectY b => [b]
  | .absolute w | .absoluteX w | .absoluteY w => [lowByte w, highByte w]

def ReadOperand.bytes : ReadOperand → List Byte
  | .immediate b => [b]
  | .mem m => m.bytes

def Location.bytes : Location → List Byte
  | .accumulator => []
  | .mem m => m.bytes

def JumpTarget.bytes : JumpTarget → List Byte
  | .absolute w | .indirect w => [lowByte w, highByte w]

/-- The operand bytes of an instruction, in fetch order (R100). -/
def Instr.operandBytes : Instr → List Byte
  | .lda o | .ldx o | .ldy o | .adc o | .sbc o | .and o | .ora o | .eor o | .cmp o | .cpx o | .cpy o => o.bytes
  | .sta m | .stx m | .sty m | .bit m | .inc m | .dec m => m.bytes
  | .asl l | .lsr l | .rol l | .ror l => l.bytes
  | .bcc b | .bcs b | .beq b | .bne b | .bpl b | .bmi b | .bvc b | .bvs b => [b]
  | .jmp t => t.bytes
  | .jsr w => [lowByte w, highByte w]
  | .tax | .tay | .tsx | .txa | .txs | .tya | .inx | .iny | .dex | .dey => []
  | .rts | .pha | .php | .pla | .plp => []
  | .clc | .cld | .cli | .clv | .sec | .sed | .sei => []
  | .brk | .rti | .nop => []
  | .invalid _ => []

/-- The opcode byte of an instruction: R111's for its mnemonic and mode, an `Invalid`'s own. -/
def Instr.opcode (i : Instr) : Option Byte :=
  match i with
  | .invalid op => some op
  | i => (opcodesOf i.mnemonic).lookup i.mode

/-- The bytes of a well-formed instruction (R100); `none` where it is ill-formed. -/
def encode (i : Instr) : Option (List Byte) :=
  if i.wf then i.opcode.map fun op => op :: i.operandBytes else none

/-- The length of an instruction in bytes (R113). -/
def Instr.length (i : Instr) : Nat := 1 + i.mode.width

/-! ### The host's view of the opcode table -/

/-- Byte `k` of an instruction whose bits the opcode table numbers from the first byte up. -/
def tableByte (w k : Nat) : Byte := BitVec.ofNat 8 (w / 256 ^ k)

/-- The bytes of an instruction of `nbits` bits: those bits of `w`, and zeros above them up to the longest instruction (3 bytes). -/
def tableBytes (nbits w : Nat) : List Byte :=
  let bits := w % 2 ^ nbits
  [tableByte bits 0, tableByte bits 1, tableByte bits 2]

/-- The instruction the decoder reads from a word of the opcode table. -/
def decodeTableWord (nbits w : Nat) : Option Instr :=
  match decode (tableBytes nbits w) with
  | .decoded i _ => some i
  | .rejected _ => none

end Sys2Proof
end

