-- ==== Sys2Proof/Config.lean ====
section
/-! DEFINITION. The implementation parameters of 00_scope.md R8 that are constants of the machine, and the open values. -/

namespace Sys2Proof

/-- The outputs of an add or subtract: the new accumulator and the flags N, V, Z, C
(the result type of `DecimalArith`, 42_arithmetic_logic.md R307). -/
structure ArithResult where
  value : Byte
  n : Bool
  v : Bool
  z : Bool
  c : Bool
  deriving DecidableEq, Repr, Inhabited

/-- `DecimalArith.adc` (R307, D5): what ADC gives when D = 1, from A, the operand and the carry in.
OPEN in the spec ("do not guess"), so a free value: it has no body and nothing is known of it.
DESIGN CHOICE (log entry 2), safe. -/
opaque Config.decimalAdc : Byte → Byte → Bool → ArithResult

/-- `DecimalArith.sbc` (R307, D5): what SBC gives when D = 1. A free value, as `Config.decimalAdc`. -/
opaque Config.decimalSbc : Byte → Byte → Bool → ArithResult

/-- `TxsSetsNZ` (R8, R211, D18, C6): true for this core; a model of the silicon would say false (log entry 4). -/
def Config.txsSetsNZ : Bool := true

/-- What an address that memory does not list reads as. The spec gives every byte a value but leaves the image open
(`M0`, R71, D10): DESIGN CHOICE 0x00 (log entry 1), unsafe. -/
def Config.unlistedByte (_addr : Nat) : Byte := 0x00#8

end Sys2Proof
end

