-- ==== Sys2Proof/Machine/Flags.lean ====
section
/-! DEFINITION. The status byte P (10_state.md R40 to R50) and every flag computation of the instruction rules, on plain bytes. -/

namespace Sys2Proof.Machine

/-- The bits of P (R40): negative, overflow, unused, break, decimal, interrupt disable, zero, carry. -/
inductive Flag
  | N | V | U | B | D | I | Z | C
  deriving DecidableEq, Repr

/-- The bit number of a flag in P (R40). -/
def flagBit : Flag → Nat
  | .N => 7
  | .V => 6
  | .U => 5
  | .B => 4
  | .D => 3
  | .I => 2
  | .Z => 1
  | .C => 0

def getFlag (p : Byte) (f : Flag) : Bool := p.getLsbD (flagBit f)

/-- P with one flag written and every other bit as it stands. -/
def setFlag (p : Byte) (f : Flag) (b : Bool) : Byte :=
  let mask := 0x01#8 <<< flagBit f
  if b then p ||| mask else p &&& ~~~mask

/-- `SetNZ(v)` (R154): Z from v = 0, N from bit 7 of v. -/
def setNZ (p v : Byte) : Byte := setFlag (setFlag p .Z (v == 0x00#8)) .N (v.getLsbD 7)

/-! ### P read, pushed and restored -/

/-- P as a read sees it: U always reads 1 (R43). -/
def visibleStatus (p : Byte) : Byte := p ||| 0x20#8

/-- `PushedP()` (R49): P with B and U forced to 1. -/
def pushedStatus (p : Byte) : Byte := p ||| 0x30#8

/-- P after PLP or RTI pulled `v` (R50): N, V, D, I, Z, C from v, the stored B, and U = 1. -/
def restoredStatus (p v : Byte) : Byte := (v &&& 0xCF#8) ||| (p &&& 0x10#8) ||| 0x20#8

/-! ### Add and subtract (42_arithmetic_logic.md R300 to R302, R307) -/

/-- ADC with D = 0 (R301). -/
def binaryAdc (a m : Byte) (c : Bool) : ArithResult :=
  let sum := a.toNat + m.toNat + c.toNat
  let r := BitVec.ofNat 8 sum
  { value := r
    n := r.getLsbD 7
    v := ((a ^^^ r) &&& (m ^^^ r) &&& 0x80#8) != 0x00#8
    z := r == 0x00#8
    c := decide (sum > 0xFF) }

/-- SBC with D = 0: "ADC with the operand's one's complement" (R302). -/
def binarySbc (a m : Byte) (c : Bool) : ArithResult := binaryAdc a (~~~m) c

/-- ADC by the D flag (R301, R307): the open parameter when D = 1. -/
def adcResult (d : Bool) (a m : Byte) (c : Bool) : ArithResult :=
  if d then Config.decimalAdc a m c else binaryAdc a m c

/-- SBC by the D flag (R302, R307). -/
def sbcResult (d : Bool) (a m : Byte) (c : Bool) : ArithResult :=
  if d then Config.decimalSbc a m c else binarySbc a m c

/-- P after an add or subtract: N, V, Z, C from the result. -/
def setNVZC (p : Byte) (r : ArithResult) : Byte :=
  setFlag (setFlag (setFlag (setFlag p .V r.v) .C r.c) .Z r.z) .N r.n

/-! ### Compare and bit test -/

/-- P after comparing a register with `m` (44_compare_branch_jump.md R500): C, Z and N. -/
def compareStatus (p reg m : Byte) : Byte :=
  setFlag (setFlag (setFlag p .C (decide (m.toNat ≤ reg.toNat))) .Z (reg == m)) .N ((reg - m).getLsbD 7)

/-- P after BIT (42_arithmetic_logic.md R306): Z from A & m, N and V from m. -/
def bitStatus (p a m : Byte) : Byte :=
  setFlag (setFlag (setFlag p .Z ((a &&& m) == 0x00#8)) .N (m.getLsbD 7)) .V (m.getLsbD 6)

/-! ### Shifts and rotates (43_shift_incdec.md R400 to R404) -/

/-- What a shift gives: the new value and the bit shifted out. -/
structure ShiftResult where
  value : Byte
  carry : Bool
  deriving DecidableEq, Repr

/-- ASL (R401); the carry in plays no part. -/
def aslByte (v : Byte) (_c : Bool) : ShiftResult := ⟨v <<< 1, v.getLsbD 7⟩

/-- LSR (R402); the carry in plays no part. -/
def lsrByte (v : Byte) (_c : Bool) : ShiftResult := ⟨v >>> 1, v.getLsbD 0⟩

/-- ROL (R403): the old C enters bit 0. -/
def rolByte (v : Byte) (c : Bool) : ShiftResult := ⟨(v <<< 1) ||| (if c then 0x01#8 else 0x00#8), v.getLsbD 7⟩

/-- ROR (R404): the old C enters bit 7. -/
def rorByte (v : Byte) (c : Bool) : ShiftResult := ⟨(v >>> 1) ||| (if c then 0x80#8 else 0x00#8), v.getLsbD 0⟩

/-- P after a shift (R400): C from the bit shifted out, then N and Z from the new value. -/
def shiftStatus (p : Byte) (r : ShiftResult) : Byte := setNZ (setFlag p .C r.carry) r.value

end Sys2Proof.Machine
end

