-- ==== Sys2Proof/Machine/State.lean ====
section
/-! DEFINITION. The machine's state: the six registers of 10_state.md R30 and memory (R54), and the reasons a step can stop. -/

namespace Sys2Proof.Machine

/-- Memory M (R54, R70): the listed (address, byte) pairs in the form `Memory.wf` (Machine/Ops.lean), any other address reading
as `Config.unlistedByte`. -/
abbrev Memory := List Host.Cell

/-- The state of the machine: "the tuple (A: u8, X: u8, Y: u8, SP: u8, PC: u16, P: u8); together with memory M" (R30). -/
structure State where
  /-- The accumulator (R31). -/
  a : Byte
  /-- Index register X (R32). -/
  x : Byte
  /-- Index register Y (R33). -/
  y : Byte
  /-- The stack pointer: the low byte of the next free stack address (R34). -/
  sp : Byte
  /-- The program counter (R35): at the start of a step the opcode's address, in a handler the address after the instruction. -/
  pc : Word
  /-- The status byte as stored (R40). Reads of it go through `State.status` (R43). -/
  p : Byte
  /-- Memory (R54). -/
  mem : Memory
  deriving DecidableEq, Repr

/-- The reasons a step can stop with a fault: none. "The core never aborts or raises for any input byte sequence; all 256 opcode
values produce a defined transition" (60_exceptions.md R700, R702). -/
inductive Fault
  deriving DecidableEq, Repr

/-- The reasons a step can be refused. -/
inductive Refusal
  /-- An instruction the model gives no meaning. Only a refused arm of `exec` answers it, and no arm is refused. Safe: the
  model stops where the core goes on. -/
  | notModelled (mnemonic : String)
  deriving DecidableEq, Repr

/-- The machine right after reset (R800) over a memory that lists nothing: A = X = Y = 0, SP = 0xFD, P = 0x24, and PC the
little-endian word at 0xFFFC/0xFFFD. Over another image: `State.boot` (Machine/Ops.lean). -/
def State.reset : State where
  a := 0x00#8
  x := 0x00#8
  y := 0x00#8
  sp := 0xFD#8
  pc := Config.unlistedByte 0xFFFD ++ Config.unlistedByte 0xFFFC
  p := 0x24#8
  mem := []

end Sys2Proof.Machine
end

