-- ==== Sys2Proof/Machine/Ops.lean ====
section
/-! DEFINITION. The named operations over memory and the registers: bytes and pairs of bytes (20_memory.md), the status byte,
push and pop, taking the one exception (BRK) and returning from it, and reset. -/

namespace Sys2Proof.Machine

/-! ### Memory as a list of cells -/

/-- The canonical form: addresses strictly rising and inside the 64 KB space (R70), and no cell holding what an unlisted
address reads as. -/
abbrev Memory.wf (m : Memory) : Prop :=
  m.Pairwise (fun c d => c.1 < d.1) ∧ ∀ c ∈ m, c.1 < 65536 ∧ c.2 ≠ Config.unlistedByte c.1

/-- The byte at an address (R73). -/
def Memory.get : Memory → Nat → Byte
  | [], addr => Config.unlistedByte addr
  | (b, v) :: m, addr => if b = addr then v else Memory.get m addr

/-- The memory without a cell for `addr`. -/
def Memory.erase (m : Memory) (addr : Nat) : Memory := m.filter fun c => c.1 != addr

/-- The memory with the cell (addr, v) at its place in the order. -/
def Memory.insert : Memory → Nat → Byte → Memory
  | [], addr, v => [(addr, v)]
  | (b, w) :: m, addr, v =>
    if addr < b then (addr, v) :: (b, w) :: m
    else if addr = b then (addr, v) :: m
    else (b, w) :: Memory.insert m addr v

/-- Store a byte (R73), in canonical form: storing what an unlisted address reads as removes the cell. -/
def Memory.set (m : Memory) (addr : Nat) (v : Byte) : Memory :=
  if v = Config.unlistedByte addr then m.erase addr else m.insert addr v

/-! ### Accesses (R72): every address is valid and every access is one byte -/

/-- `MemRead(addr, 1)`. -/
def State.read (s : State) (addr : Word) : Byte := s.mem.get addr.toNat

/-- `MemWrite(addr, 1, v)`. -/
def State.write (s : State) (addr : Word) (v : Byte) : State := { s with mem := s.mem.set addr.toNat v }

/-- `Read16LE(lo_addr, hi_addr)` (R11, R74): the low byte from the first address. -/
def State.readPair (s : State) (loAddr hiAddr : Word) : Word := joinBytes (s.read hiAddr) (s.read loAddr)

/-! ### Registers -/

/-- The 8-bit registers that loads, transfers and steps name (R30). -/
inductive Reg
  | A | X | Y | SP
  deriving DecidableEq, Repr

def State.reg (s : State) : Reg → Byte
  | .A => s.a
  | .X => s.x
  | .Y => s.y
  | .SP => s.sp

def State.withReg (s : State) (r : Reg) (v : Byte) : State :=
  match r with
  | .A => { s with a := v }
  | .X => { s with x := v }
  | .Y => { s with y := v }
  | .SP => { s with sp := v }

/-- PC <- target (R155). No target faults (R36). -/
def State.jump (s : State) (target : Word) : State := { s with pc := target }

/-! ### The status byte -/

/-- P as every reader sees it (R43). -/
def State.status (s : State) : Byte := visibleStatus s.p

/-- One flag of P as every reader sees it. -/
def State.flag (s : State) (f : Flag) : Bool := getFlag s.status f

def State.withStatus (s : State) (p : Byte) : State := { s with p := p }

def State.withFlag (s : State) (f : Flag) (b : Bool) : State := s.withStatus (setFlag s.p f b)

/-- N, Z from a value (R154). -/
def State.withNZ (s : State) (v : Byte) : State := s.withStatus (setNZ s.p v)

/-! ### The stack (R34, R152, R153) -/

/-- `0x0100 | SP`: an address of page 1. -/
def stackAddr (sp : Byte) : Word := 0x0100#16 ||| zext sp

/-- Push: write at 0x0100 + SP, then decrement SP. -/
def State.push (s : State) (v : Byte) : State := (s.write (stackAddr s.sp) v).withReg .SP (s.sp - 1#8)

/-- Pop: increment SP, then read at 0x0100 + SP. Answers the byte and the state after. -/
def State.pop (s : State) : Byte × State :=
  let popped := s.withReg .SP (s.sp + 1#8)
  (popped.read (stackAddr popped.sp), popped)

/-- Push a 16-bit value: the high byte, then the low byte (R74). -/
def State.pushWord (s : State) (w : Word) : State := (s.push (highByte w)).push (lowByte w)

/-- Pop a 16-bit value: the low byte, then the high byte (R74). -/
def State.popWord (s : State) : Word × State :=
  let lo := s.pop
  let hi := lo.2.pop
  (joinBytes hi.1 lo.1, hi.2)

/-- Pop the status byte (R50, R604, R616). -/
def State.popStatus (s : State) : State :=
  s.pop.2.withStatus (restoredStatus s.p s.pop.1)

/-! ### The exception, the return from it, and reset -/

/-- Taking the Break exception (60_exceptions.md R712, 45_stack_flags_system.md R615), on the state whose PC is past the opcode:
push `ret` (high, low) and P with B and U forced to 1, set I, load PC from 0xFFFE/0xFFFF. -/
def State.takeBreak (s : State) (ret : Word) : State :=
  let pushed := (s.pushWord ret).push (pushedStatus s.p)
  (pushed.withFlag .I true).jump (pushed.readPair 0xFFFE#16 0xFFFF#16)

/-- Returning from it (R616, R713): pop the status, then PC (low, high). -/
def State.returnFromBreak (s : State) : State :=
  let target := s.popStatus.popWord
  target.2.jump target.1

/-- `reset()` (70_reset_and_hazards.md R800, R801): from any state, memory untouched. -/
def State.resetCore (s : State) : State where
  a := 0x00#8
  x := 0x00#8
  y := 0x00#8
  sp := 0xFD#8
  pc := s.readPair 0xFFFC#16 0xFFFD#16
  p := 0x24#8
  mem := s.mem

/-- The machine right after the first reset over the memory image `image`: the parameter `M0` (R71, R804, D10). The registers
before the reset play no part in it (`resetCore_eq_boot` of Laws/Ops.lean). -/
def State.boot (image : Memory) : State := { State.reset with mem := image }.resetCore

end Sys2Proof.Machine
end

