-- ==== Sys2Proof/Machine/Operands.lean ====
section
/-! DEFINITION. The operand forms: effective addresses (40_execution_cycle.md R140 to R147), the operand read (R150) and the
read-modify-write location (R151). -/

namespace Sys2Proof.Machine

/-- The 16-bit pointer in page 0 at `p`: its high byte from `(p + 1) & 0xFF` (R145, R146; for IndirectY by D7, log entry 8). -/
def zeroPagePointer (s : State) (p : Byte) : Word := s.readPair (zext p) (zext (p + 1#8))

/-- `EA(mode, raw)` (R140 to R146). -/
def effectiveAddr (s : State) : MemOperand → Word
  | .zeroPage b => zext b
  | .zeroPageX b => zext (b + s.x)
  | .zeroPageY b => zext (b + s.y)
  | .absolute w => w
  | .absoluteX w => w + zext s.x
  | .absoluteY w => w + zext s.y
  | .indirectX b => zeroPagePointer s (b + s.x)
  | .indirectY b => zeroPagePointer s b + zext s.y

/-- The address of the high byte of an Indirect target: it never carries into the next page (R144). -/
def indirectHighAddr (ptr : Word) : Word := (ptr &&& 0xFF00#16) ||| ((ptr + 1#16) &&& 0x00FF#16)

/-- The target of JMP (R142, R144, R520). -/
def jumpTarget (s : State) : JumpTarget → Word
  | .absolute w => w
  | .indirect ptr => s.readPair ptr (indirectHighAddr ptr)

/-- The target of a branch, PC being past the instruction (R147). -/
def branchTarget (pc : Word) (offset : Byte) : Word := pc + sext offset

/-- `Operand(mode, raw)` (R150). -/
def operandValue (s : State) : ReadOperand → Byte
  | .immediate v => v
  | .mem m => s.read (effectiveAddr s m)

/-- A location with its address computed, once (R151). -/
inductive Loc
  | accumulator
  | cell (addr : Word)
  deriving DecidableEq, Repr

/-- `Loc(mode, raw)` (R151). -/
def resolveLoc (s : State) : Location → Loc
  | .accumulator => .accumulator
  | .mem m => .cell (effectiveAddr s m)

/-- `ReadLoc` (R151). -/
def readLoc (s : State) : Loc → Byte
  | .accumulator => s.a
  | .cell addr => s.read addr

/-- `WriteLoc` (R151). -/
def writeLoc (s : State) (l : Loc) (v : Byte) : State :=
  match l with
  | .accumulator => s.withReg .A v
  | .cell addr => s.write addr v

end Sys2Proof.Machine
end

