-- ==== Sys2Proof/Machine/LoadStore.lean ====
section
/-! DEFINITION. Load, store and transfer instructions (41_load_store_transfer.md R200 to R212). Every handler starts from the
state whose PC is past the instruction (R135). -/

namespace Sys2Proof.Machine

/-- Copy a byte to a register and set N, Z from it (R200). -/
def copyTo (r : Reg) (v : Byte) (s : State) : State := (s.withReg r v).withNZ v

/-- LDA (R201). -/
def execLda (o : ReadOperand) (s : State) : Host.Outcome State Fault Refusal := .next (copyTo .A (operandValue s o) s)

/-- LDX (R202). -/
def execLdx (o : ReadOperand) (s : State) : Host.Outcome State Fault Refusal := .next (copyTo .X (operandValue s o) s)

/-- LDY (R203). -/
def execLdy (o : ReadOperand) (s : State) : Host.Outcome State Fault Refusal := .next (copyTo .Y (operandValue s o) s)

/-- Write a register's byte to the effective address; no flag effect (R200). -/
def storeFrom (r : Reg) (m : MemOperand) (s : State) : State := s.write (effectiveAddr s m) (s.reg r)

/-- STA (R204). -/
def execSta (m : MemOperand) (s : State) : Host.Outcome State Fault Refusal := .next (storeFrom .A m s)

/-- STX (R205). -/
def execStx (m : MemOperand) (s : State) : Host.Outcome State Fault Refusal := .next (storeFrom .X m s)

/-- STY (R206). -/
def execSty (m : MemOperand) (s : State) : Host.Outcome State Fault Refusal := .next (storeFrom .Y m s)

/-- TAX (R207). -/
def execTax (s : State) : Host.Outcome State Fault Refusal := .next (copyTo .X s.a s)

/-- TAY (R208). -/
def execTay (s : State) : Host.Outcome State Fault Refusal := .next (copyTo .Y s.a s)

/-- TSX (R209). -/
def execTsx (s : State) : Host.Outcome State Fault Refusal := .next (copyTo .X s.sp s)

/-- TXA (R210). -/
def execTxa (s : State) : Host.Outcome State Fault Refusal := .next (copyTo .A s.x s)

/-- `SP <- X; if TxsSetsNZ: SetNZ(X)` (R211). -/
def transferToSP (setsNZ : Bool) (s : State) : State :=
  if setsNZ then (s.withReg .SP s.x).withNZ s.x else s.withReg .SP s.x

/-- TXS (R211), for this core's value of the parameter. -/
def execTxs (s : State) : Host.Outcome State Fault Refusal := .next (transferToSP Config.txsSetsNZ s)

/-- TYA (R212). -/
def execTya (s : State) : Host.Outcome State Fault Refusal := .next (copyTo .A s.y s)

end Sys2Proof.Machine
end

