-- ==== Sys2Proof/Machine/Arithmetic.lean ====
section
/-! DEFINITION. Arithmetic and logical instructions (42_arithmetic_logic.md R300 to R307). -/

namespace Sys2Proof.Machine

/-- A and N, V, Z, C from the result of an add or subtract. -/
def withArith (s : State) (r : ArithResult) : State := (s.withReg .A r.value).withStatus (setNVZC s.p r)

/-- ADC (R301, R307). -/
def execAdc (o : ReadOperand) (s : State) : Host.Outcome State Fault Refusal :=
  .next (withArith s (adcResult (s.flag .D) s.a (operandValue s o) (s.flag .C)))

/-- SBC (R302, R307). -/
def execSbc (o : ReadOperand) (s : State) : Host.Outcome State Fault Refusal :=
  .next (withArith s (sbcResult (s.flag .D) s.a (operandValue s o) (s.flag .C)))

/-- AND (R303). -/
def execAnd (o : ReadOperand) (s : State) : Host.Outcome State Fault Refusal :=
  .next (copyTo .A (s.a &&& operandValue s o) s)

/-- ORA (R304). -/
def execOra (o : ReadOperand) (s : State) : Host.Outcome State Fault Refusal :=
  .next (copyTo .A (s.a ||| operandValue s o) s)

/-- EOR (R305). -/
def execEor (o : ReadOperand) (s : State) : Host.Outcome State Fault Refusal :=
  .next (copyTo .A (s.a ^^^ operandValue s o) s)

/-- BIT (R306). -/
def execBit (m : MemOperand) (s : State) : Host.Outcome State Fault Refusal :=
  .next (s.withStatus (bitStatus s.p s.a (s.read (effectiveAddr s m))))

end Sys2Proof.Machine
end

