-- ==== Sys2Proof/Machine/Control.lean ====
section
/-! DEFINITION. Compare, branch and jump instructions (44_compare_branch_jump.md R500 to R523). -/

namespace Sys2Proof.Machine

/-- Compare a register with the operand without storing (R500). -/
def compareWith (r : Reg) (o : ReadOperand) (s : State) : State :=
  s.withStatus (compareStatus s.p (s.reg r) (operandValue s o))

/-- CMP (R501). -/
def execCmp (o : ReadOperand) (s : State) : Host.Outcome State Fault Refusal := .next (compareWith .A o s)

/-- CPX (R502). -/
def execCpx (o : ReadOperand) (s : State) : Host.Outcome State Fault Refusal := .next (compareWith .X o s)

/-- CPY (R503). -/
def execCpy (o : ReadOperand) (s : State) : Host.Outcome State Fault Refusal := .next (compareWith .Y o s)

/-- `Branch(cond, raw)` (R510). -/
def branchIf (cond : Bool) (offset : Byte) (s : State) : State :=
  if cond then s.jump (branchTarget s.pc offset) else s

/-- BCC (R511): C = 0. -/
def execBcc (offset : Byte) (s : State) : Host.Outcome State Fault Refusal := .next (branchIf (!s.flag .C) offset s)

/-- BCS (R512): C = 1. -/
def execBcs (offset : Byte) (s : State) : Host.Outcome State Fault Refusal := .next (branchIf (s.flag .C) offset s)

/-- BEQ (R513): Z = 1. -/
def execBeq (offset : Byte) (s : State) : Host.Outcome State Fault Refusal := .next (branchIf (s.flag .Z) offset s)

/-- BNE (R514): Z = 0. -/
def execBne (offset : Byte) (s : State) : Host.Outcome State Fault Refusal := .next (branchIf (!s.flag .Z) offset s)

/-- BPL (R515): N = 0. -/
def execBpl (offset : Byte) (s : State) : Host.Outcome State Fault Refusal := .next (branchIf (!s.flag .N) offset s)

/-- BMI (R516): N = 1. -/
def execBmi (offset : Byte) (s : State) : Host.Outcome State Fault Refusal := .next (branchIf (s.flag .N) offset s)

/-- BVC (R517): V = 0. -/
def execBvc (offset : Byte) (s : State) : Host.Outcome State Fault Refusal := .next (branchIf (!s.flag .V) offset s)

/-- BVS (R518): V = 1. -/
def execBvs (offset : Byte) (s : State) : Host.Outcome State Fault Refusal := .next (branchIf (s.flag .V) offset s)

/-- JMP (R520). -/
def execJmp (t : JumpTarget) (s : State) : Host.Outcome State Fault Refusal := .next (s.jump (jumpTarget s t))

/-- JSR (R521): push the address of its own last byte, PC - 1, then jump. -/
def execJsr (target : Word) (s : State) : Host.Outcome State Fault Refusal :=
  .next ((s.pushWord (s.pc - 1#16)).jump target)

/-- RTS (R522): pop a word and go to the address after it. -/
def execRts (s : State) : Host.Outcome State Fault Refusal := .next (s.popWord.2.jump (s.popWord.1 + 1#16))

end Sys2Proof.Machine
end

