-- ==== Sys2Proof/Machine/Shift.lean ====
section
/-! DEFINITION. Shift, rotate, increment and decrement instructions (43_shift_incdec.md R400 to R410). -/

namespace Sys2Proof.Machine

/-- Read the location once, shift with the carry in, write it once, set C, N, Z (R400, R151). -/
def shiftAt (f : Byte → Bool → ShiftResult) (l : Location) (s : State) : State :=
  let loc := resolveLoc s l
  let r := f (readLoc s loc) (s.flag .C)
  (writeLoc s loc r.value).withStatus (shiftStatus s.p r)

/-- ASL (R401). -/
def execAsl (l : Location) (s : State) : Host.Outcome State Fault Refusal := .next (shiftAt aslByte l s)

/-- LSR (R402). -/
def execLsr (l : Location) (s : State) : Host.Outcome State Fault Refusal := .next (shiftAt lsrByte l s)

/-- ROL (R403). -/
def execRol (l : Location) (s : State) : Host.Outcome State Fault Refusal := .next (shiftAt rolByte l s)

/-- ROR (R404). -/
def execRor (l : Location) (s : State) : Host.Outcome State Fault Refusal := .next (shiftAt rorByte l s)

/-- Read a memory cell, change the byte, write it back and set N, Z (R405, R406). -/
def stepCell (f : Byte → Byte) (m : MemOperand) (s : State) : State :=
  let addr := effectiveAddr s m
  let r := f (s.read addr)
  (s.write addr r).withNZ r

/-- INC (R405). -/
def execInc (m : MemOperand) (s : State) : Host.Outcome State Fault Refusal := .next (stepCell (· + 1#8) m s)

/-- DEC (R406). -/
def execDec (m : MemOperand) (s : State) : Host.Outcome State Fault Refusal := .next (stepCell (· - 1#8) m s)

/-- INX (R407). -/
def execInx (s : State) : Host.Outcome State Fault Refusal := .next (copyTo .X (s.x + 1#8) s)

/-- INY (R408). -/
def execIny (s : State) : Host.Outcome State Fault Refusal := .next (copyTo .Y (s.y + 1#8) s)

/-- DEX (R409). -/
def execDex (s : State) : Host.Outcome State Fault Refusal := .next (copyTo .X (s.x - 1#8) s)

/-- DEY (R410). -/
def execDey (s : State) : Host.Outcome State Fault Refusal := .next (copyTo .Y (s.y - 1#8) s)

end Sys2Proof.Machine
end

