-- ==== Sys2Proof/Machine/System.lean ====
section
/-! DEFINITION. Stack, flag, system and invalid instructions (45_stack_flags_system.md R601 to R620). -/

namespace Sys2Proof.Machine

/-- PHA (R601). -/
def execPha (s : State) : Host.Outcome State Fault Refusal := .next (s.push s.a)

/-- PHP (R602): P itself is unchanged. -/
def execPhp (s : State) : Host.Outcome State Fault Refusal := .next (s.push (pushedStatus s.p))

/-- PLA (R603). -/
def execPla (s : State) : Host.Outcome State Fault Refusal := .next (copyTo .A s.pop.1 s.pop.2)

/-- PLP (R604). -/
def execPlp (s : State) : Host.Outcome State Fault Refusal := .next s.popStatus

/-- CLC (R605). -/
def execClc (s : State) : Host.Outcome State Fault Refusal := .next (s.withFlag .C false)

/-- CLD (R606). -/
def execCld (s : State) : Host.Outcome State Fault Refusal := .next (s.withFlag .D false)

/-- CLI (R607). -/
def execCli (s : State) : Host.Outcome State Fault Refusal := .next (s.withFlag .I false)

/-- CLV (R608). -/
def execClv (s : State) : Host.Outcome State Fault Refusal := .next (s.withFlag .V false)

/-- SEC (R609). -/
def execSec (s : State) : Host.Outcome State Fault Refusal := .next (s.withFlag .C true)

/-- SED (R610). -/
def execSed (s : State) : Host.Outcome State Fault Refusal := .next (s.withFlag .D true)

/-- SEI (R611). -/
def execSei (s : State) : Host.Outcome State Fault Refusal := .next (s.withFlag .I true)

/-- BRK (R615): takes the Break exception with the return address pc0 + 2, which is PC + 1 in a handler (D3, log entry 7). -/
def execBrk (s : State) : Host.Outcome State Fault Refusal := .next (s.takeBreak (s.pc + 1#16))

/-- RTI (R616). -/
def execRti (s : State) : Host.Outcome State Fault Refusal := .next s.returnFromBreak

/-- NOP (R617): "no state change beyond the PC advance already performed during fetch/resolve". -/
def execNop (s : State) : Host.Outcome State Fault Refusal := .next s

/-- Invalid (R620): no change beyond the fetch's PC advance; the illegal-opcode report is `report` of Machine/Fetch.lean. -/
def execInvalid (_opcode : Byte) (s : State) : Host.Outcome State Fault Refusal := .next s

end Sys2Proof.Machine
end

