-- ==== Sys2Proof/Machine/Fetch.lean ====
section
/-! DEFINITION. Fetch, decode and resolve (40_execution_cycle.md R130 to R134), and the step report (R131, R812). -/

namespace Sys2Proof.Machine

/-- What fetch and resolve give: the opcode, the raw value, and the state with PC past the instruction. -/
structure Fetched where
  opcode : Byte
  raw : Word
  after : State
  deriving DecidableEq, Repr

/-- The byte at PC, with PC one on (R132, R134): at 0xFFFF, PC wraps to 0x0000. -/
def State.fetchByte (s : State) : Byte × State := (s.read s.pc, s.jump (s.pc + 1#16))

/-- `Resolve(mode)` by the mode's width (R134): consume 0, 1 or 2 operand bytes at PC. -/
def State.resolve (s : State) (width : Nat) : Word × State :=
  match width with
  | 0 => (0x0000#16, s)
  | 1 =>
    let b := s.fetchByte
    (zext b.1, b.2)
  | _ + 2 =>
    let lo := s.fetchByte
    let hi := lo.2.fetchByte
    (joinBytes hi.1 lo.1, hi.2)

/-- Fetch the opcode and resolve its operand (R130). -/
def State.fetch (s : State) : Fetched :=
  let op := s.fetchByte
  let resolved := op.2.resolve (opcodeMap op.1).2.width
  { opcode := op.1, raw := resolved.1, after := resolved.2 }

/-- The instruction that was fetched (R133). -/
def Fetched.instr (f : Fetched) : Instr := instrOf f.opcode f.raw

/-- The step report (R131, R812). -/
structure Report where
  pc : Word
  opcode : Byte
  operand : Word
  mnemonic : Mnemonic
  mode : AddrMode
  illegal : Bool
  deriving DecidableEq, Repr

/-- The report of the step from `s` (R131): "an output of a step, not state carried to the next one" (R53). -/
def report (s : State) : Report :=
  let f := s.fetch
  let pair := opcodeMap f.opcode
  { pc := s.pc, opcode := f.opcode, operand := f.raw, mnemonic := pair.1, mode := pair.2, illegal := pair.1 == .invalid }

/-- The state with `bytes` stored from PC on. -/
def placeAtPC (s : State) (bytes : List Byte) : State :=
  go s s.pc bytes
where
  go (s : State) (addr : Word) : List Byte → State
    | [] => s
    | b :: rest => go (s.write addr b) (addr + 1#16) rest

end Sys2Proof.Machine
end

