-- ==== Sys2Proof/Machine/Step.lean ====
section
/-! DEFINITION. One step (40_execution_cycle.md R130): fetch, decode, resolve, dispatch. -/

namespace Sys2Proof.Machine

/-- `step()` (R130). Its report is `report s`. -/
def step (s : State) : Host.Outcome State Fault Refusal := exec s.fetch.instr s.fetch.after

/-- `s` with the instruction of an opcode-table word stored where the next step fetches, at PC. -/
def State.withFetchWord (s : State) (nbits w : Nat) : State := placeAtPC s (tableBytes nbits w)

end Sys2Proof.Machine
end

