-- ==== Sys2Proof/Machine/Decimal.lean ====
section
/-! DEFINITION. The two known instantiations of `DecimalArith` (42_arithmetic_logic.md R307, 93_implementation_defined.md I3).
No instruction calls them: "Neither is this spec's default", the model's ADC and SBC use the free values of Config when D = 1, and a
claim that needs one of these takes it as a hypothesis on `Config.decimalAdc` and `Config.decimalSbc`. The instantiation `binary` is
`binaryAdc` and `binarySbc`. -/

namespace Sys2Proof.Machine

/-- `sx(b)`: a byte as a signed value (I3). -/
def signedByte (b : Byte) : Int := b.toInt

/-- `nmos_bcd.adc` (I3). -/
def nmosBcdAdc (a m : Byte) (c : Bool) : ArithResult :=
  let al₀ := a.toNat % 16 + m.toNat % 16 + c.toNat
  let al := if al₀ ≥ 0x0A then (al₀ + 0x06) % 16 + 0x10 else al₀
  let s₀ := (a &&& 0xF0#8).toNat + (m &&& 0xF0#8).toNat + al
  let s := if s₀ ≥ 0xA0 then s₀ + 0x60 else s₀
  let t := signedByte (a &&& 0xF0#8) + signedByte (m &&& 0xF0#8) + al
  { value := BitVec.ofNat 8 s
    n := (BitVec.ofInt 8 t).getLsbD 7
    v := decide (t < -128) || decide (t > 127)
    z := BitVec.ofNat 8 (a.toNat + m.toNat + c.toNat) == 0x00#8
    c := decide (s ≥ 0x100) }

/-- `nmos_bcd.sbc` (I3): the flags are those of the binary SBC. -/
def nmosBcdSbc (a m : Byte) (c : Bool) : ArithResult :=
  let al₀ : Int := (a.toNat % 16 : Nat) - (m.toNat % 16 : Nat) + c.toNat - 1
  let al : Int := if al₀ < 0 then (al₀ - 0x06) % 16 - 0x10 else al₀
  let s₀ : Int := (a &&& 0xF0#8).toNat - (m &&& 0xF0#8).toNat + al
  let s := if s₀ < 0 then s₀ - 0x60 else s₀
  { binarySbc a m c with value := BitVec.ofInt 8 s }

end Sys2Proof.Machine
end

