-- ==== Sys2Proof/Machine/Accesses.lean ====
section
/-! DEFINITION. The memory accesses of a step, in the order they occur (20_memory.md R76, D8): the fetch reads first, then the
handler's. `exec` does not use this list; the statements `StepWritesExactlyItsAccesses` and `StepReadsOnlyItsAccesses` say that
the machine makes these accesses and no others. -/

namespace Sys2Proof.Machine

/-- One byte access (R72). -/
inductive Access
  | read (addr : Word)
  | write (addr : Word) (v : Byte)
  deriving DecidableEq, Repr

/-- The pointer bytes of IndirectX and IndirectY, low first (R145, R146). -/
def pointerReads (s : State) : MemOperand → List Access
  | .indirectX b => [.read (zext (b + s.x)), .read (zext (b + s.x + 1#8))]
  | .indirectY b => [.read (zext b), .read (zext (b + 1#8))]
  | .zeroPage _ | .zeroPageX _ | .zeroPageY _ | .absolute _ | .absoluteX _ | .absoluteY _ => []

/-- The accesses of an operand read (R150). -/
def operandAccesses (s : State) : ReadOperand → List Access
  | .immediate _ => []
  | .mem m => pointerReads s m ++ [.read (effectiveAddr s m)]

/-- The accesses of a store of `v` (R204 to R206): the target is not read. -/
def storeAccesses (s : State) (m : MemOperand) (v : Byte) : List Access :=
  pointerReads s m ++ [.write (effectiveAddr s m) v]

/-- The accesses of a read-modify-write of a cell (R151): one read, then one write. -/
def modifyAccesses (s : State) (m : MemOperand) (f : Byte → Byte) : List Access :=
  let addr := effectiveAddr s m
  pointerReads s m ++ [.read addr, .write addr (f (s.read addr))]

/-- The accesses of a shift or rotate: none in Accumulator mode. -/
def shiftAccesses (s : State) (f : Byte → Bool → ShiftResult) : Location → List Access
  | .accumulator => []
  | .mem m => modifyAccesses s m fun v => (f v (s.flag .C)).value

/-- The handler's accesses, from the state it starts from. -/
def handlerAccesses (i : Instr) (s : State) : List Access :=
  match i with
  | .lda o | .ldx o | .ldy o | .adc o | .sbc o | .and o | .ora o | .eor o | .cmp o | .cpx o | .cpy o => operandAccesses s o
  | .bit m => operandAccesses s (.mem m)
  | .sta m => storeAccesses s m s.a
  | .stx m => storeAccesses s m s.x
  | .sty m => storeAccesses s m s.y
  | .asl l => shiftAccesses s aslByte l
  | .lsr l => shiftAccesses s lsrByte l
  | .rol l => shiftAccesses s rolByte l
  | .ror l => shiftAccesses s rorByte l
  | .inc m => modifyAccesses s m (· + 1#8)
  | .dec m => modifyAccesses s m (· - 1#8)
  | .jmp (.indirect ptr) => [.read ptr, .read (indirectHighAddr ptr)]
  | .jsr _ =>
    [.write (stackAddr s.sp) (highByte (s.pc - 1#16)), .write (stackAddr (s.sp - 1#8)) (lowByte (s.pc - 1#16))]
  | .rts => [.read (stackAddr (s.sp + 1#8)), .read (stackAddr (s.sp + 2#8))]
  | .pha => [.write (stackAddr s.sp) s.a]
  | .php => [.write (stackAddr s.sp) (pushedStatus s.p)]
  | .pla | .plp => [.read (stackAddr (s.sp + 1#8))]
  | .brk =>
    [.write (stackAddr s.sp) (highByte (s.pc + 1#16)), .write (stackAddr (s.sp - 1#8)) (lowByte (s.pc + 1#16)),
     .write (stackAddr (s.sp - 2#8)) (pushedStatus s.p), .read 0xFFFE#16, .read 0xFFFF#16]
  | .rti => [.read (stackAddr (s.sp + 1#8)), .read (stackAddr (s.sp + 2#8)), .read (stackAddr (s.sp + 3#8))]
  | .jmp (.absolute _) => []
  | .bcc _ | .bcs _ | .beq _ | .bne _ | .bpl _ | .bmi _ | .bvc _ | .bvs _ => []
  | .tax | .tay | .tsx | .txa | .txs | .tya | .inx | .iny | .dex | .dey => []
  | .clc | .cld | .cli | .clv | .sec | .sed | .sei | .nop => []
  | .invalid _ => []

/-- The fetch reads F at pc0, pc0 + 1, pc0 + 2, as many as the instruction has bytes (R76). -/
def fetchAccesses (s : State) : List Access :=
  (List.range (1 + (opcodeMap (s.read s.pc)).2.width)).map fun k => .read (s.pc + BitVec.ofNat 16 k)

/-- The accesses of a step (R76). -/
def stepAccesses (s : State) : List Access := fetchAccesses s ++ handlerAccesses s.fetch.instr s.fetch.after

/-- The effect of an access on memory. -/
def Access.apply (s : State) : Access → State
  | .read _ => s
  | .write addr v => s.write addr v

def Access.isWrite : Access → Bool
  | .read _ => false
  | .write _ _ => true

end Sys2Proof.Machine
end

