-- ==== Sys2Proof/Machine/HostInterface.lean ====
section
/-! DEFINITION. The host's calls (70_reset_and_hazards.md R813) and the run loop with the end of a run (R814). -/

namespace Sys2Proof.Machine

/-- What the host does between transitions (R77, R803, R813): call `step()`, call `reset()`, write a byte of memory, or write a
register ("read and write memory and registers' observable values between steps", R813; log entry 15). Its reads change nothing. -/
inductive HostCall
  | step
  | reset
  | write (addr : Word) (v : Byte)
  | setReg (r : Reg) (v : Byte)
  | setPC (addr : Word)
  | setStatus (v : Byte)
  deriving DecidableEq, Repr

/-- The effect of a call. A host write of the status byte leaves B and U as they are ("no write changes it", R43; the stored B is 0
in every state reached from reset, R44), as PLP's does. -/
def hostCall (c : HostCall) (s : State) : Host.Outcome State Fault Refusal :=
  match c with
  | .step => step s
  | .reset => .next s.resetCore
  | .write addr v => .next (s.write addr v)
  | .setReg r v => .next (s.withReg r v)
  | .setPC addr => .next (s.jump addr)
  | .setStatus v => .next (s.withStatus (restoredStatus s.p v))

/-- A sequence of calls, one after the other (R80). -/
def hostCalls : List HostCall → State → Host.Outcome State Fault Refusal
  | [], s => .next s
  | c :: cs, s =>
    match hostCall c s with
    | .next t => hostCalls cs t
    | .fault r => .fault r
    | .refused r => .refused r

/-- `IllegalPolicy` (R8, D2): what the host does after an illegal-opcode report. OPEN in the spec, so an argument of the loop. -/
inductive IllegalPolicy
  | halt
  | continue
  deriving DecidableEq, Repr

/-- Why a run ended (R814). `stopped` is for a step that answers no next state, which no state has
(the statement `EveryRunCompletes`). -/
inductive RunEnd
  | illegal (r : Report)
  | fixedPoint
  | budget
  | stopped
  deriving DecidableEq, Repr

/-- Every register (A, X, Y, SP, PC, P) equal (R814). -/
def sameRegisters (s t : State) : Bool :=
  s.a == t.a && s.x == t.x && s.y == t.y && s.sp == t.sp && s.pc == t.pc && s.p == t.p

/-- Condition (b) of R814 for the step from `s` to `t`: it wrote no memory and every register is as before. -/
def isFixedPoint (s t : State) : Bool := sameRegisters s t && (stepAccesses s).all fun acc => !acc.isWrite

/-- The host's run loop: the first of an illegal-opcode report (under `halt`), a fixed point, or the end of the budget (R814). -/
def hostRun (policy : IllegalPolicy) : Nat → State → RunEnd × State
  | 0, s => (.budget, s)
  | k + 1, s =>
    match step s with
    | .next t =>
      if (report s).illegal && policy == .halt then (.illegal (report s), t)
      else if isFixedPoint s t then (.fixedPoint, t)
      else hostRun policy k t
    | .fault _ => (.stopped, s)
    | .refused _ => (.stopped, s)

end Sys2Proof.Machine
end

