-- ==== Sys2Proof/Safety.lean ====
section
/-! DEFINITION. What the claims speak of: the invariant of the machine, the states a host can reach, a run without illegal opcodes,
and the words for frames (what an instruction leaves unchanged). -/

namespace Sys2Proof.Machine

/-- The invariant: memory in canonical form, U stored as 1 (10_state.md R43), B stored as 0 (R44). -/
structure State.Inv (s : State) : Prop where
  memory : s.mem.wf
  unusedIsOne : getFlag s.p .U = true
  breakIsZero : getFlag s.p .B = false

/-- A state that the host's calls reach after a reset over some memory image (R804). -/
def Reachable (s : State) : Prop :=
  ∃ image : Memory, image.wf ∧ ∃ calls, hostCalls calls (State.boot image) = .next s

/-- None of the next `n` steps reports an illegal opcode: the hypothesis under which D2 advises to state claims. -/
def NoIllegalFor : Nat → State → Prop
  | 0, _ => True
  | n + 1, s => (report s).illegal = false ∧ ∀ t, step s = .next t → NoIllegalFor n t

/-- The handlers of instructions one after the other, for statements about a pair such as a call and its return. -/
def execSeq : List Instr → State → Host.Outcome State Fault Refusal
  | [], s => .next s
  | i :: is, s =>
    match exec i s with
    | .next t => execSeq is t
    | .fault r => .fault r
    | .refused r => .refused r

/-! ### Frames -/

/-- Every register of `r ∉ changed` is unchanged. -/
def KeepsRegsBut (changed : List Reg) (s t : State) : Prop := ∀ r, r ∉ changed → t.reg r = s.reg r

/-- Every bit of P, as read, that is not in `changed` is unchanged. -/
def KeepsFlagsBut (changed : List Flag) (s t : State) : Prop := ∀ f, f ∉ changed → t.flag f = s.flag f

/-- Every byte of memory outside `stored` reads as before. -/
def KeepsMemoryBut (stored : List Word) (s t : State) : Prop := ∀ addr, addr ∉ stored → t.read addr = s.read addr

/-- N and Z are those of the byte `v` (R154). -/
def NZOf (v : Byte) (t : State) : Prop := t.flag .N = v.getLsbD 7 ∧ t.flag .Z = decide (v = 0x00#8)

/-- The register takes the byte `v`, N and Z are those of `v`, and nothing else changes (R154). -/
def SetsRegNZ (r : Reg) (v : Byte) (s t : State) : Prop :=
  t.reg r = v ∧ NZOf v t ∧ KeepsRegsBut [r] s t ∧ KeepsFlagsBut [.N, .Z] s t ∧ KeepsMemoryBut [] s t ∧ t.pc = s.pc

/-- The byte `v` stands at `addr`, and nothing else changes. -/
def StoresByte (addr : Word) (v : Byte) (s t : State) : Prop :=
  t.read addr = v ∧ KeepsMemoryBut [addr] s t ∧ KeepsRegsBut [] s t ∧ KeepsFlagsBut [] s t ∧ t.pc = s.pc

/-- The location takes the byte `v` (A in Accumulator mode, else the cell at the effective address in `s`), C is `carry`, N and Z
are those of `v`, and nothing else changes (R400). -/
def ShiftsTo (l : Location) (v : Byte) (carry : Bool) (s t : State) : Prop :=
  (match l with
    | .accumulator => t.a = v ∧ KeepsRegsBut [.A] s t ∧ KeepsMemoryBut [] s t
    | .mem m => t.read (effectiveAddr s m) = v ∧ KeepsMemoryBut [effectiveAddr s m] s t ∧ KeepsRegsBut [] s t) ∧
  t.flag .C = carry ∧ NZOf v t ∧ KeepsFlagsBut [.C, .N, .Z] s t ∧ t.pc = s.pc

/-- C, Z and N are those of comparing `reg` with `m`, and nothing else changes (R500). -/
def Compares (reg m : Byte) (s t : State) : Prop :=
  t.flag .C = decide (reg.toNat ≥ m.toNat) ∧ t.flag .Z = decide (reg = m) ∧
  t.flag .N = (BitVec.ofNat 8 (reg.toNat + 256 - m.toNat)).getLsbD 7 ∧
  KeepsRegsBut [] s t ∧ KeepsFlagsBut [.C, .Z, .N] s t ∧ KeepsMemoryBut [] s t ∧ t.pc = s.pc

/-- One flag takes a value, and nothing else changes (R612). -/
def SetsFlag (f : Flag) (b : Bool) (s t : State) : Prop :=
  t.flag f = b ∧ KeepsFlagsBut [f] s t ∧ KeepsRegsBut [] s t ∧ KeepsMemoryBut [] s t ∧ t.pc = s.pc

/-- A and N, V, Z, C are those of `r`, and nothing else changes. -/
def SetsArith (r : ArithResult) (s t : State) : Prop :=
  t.a = r.value ∧ t.flag .N = r.n ∧ t.flag .V = r.v ∧ t.flag .Z = r.z ∧ t.flag .C = r.c ∧
  KeepsRegsBut [.A] s t ∧ KeepsFlagsBut [.N, .V, .Z, .C] s t ∧ KeepsMemoryBut [] s t ∧ t.pc = s.pc

/-! ### Who writes what -/

/-- The instructions that write a flag (R41, R42, R45 to R48), and none for U (R43) and B (R44). -/
def flagWriters : Flag → List Mnemonic
  | .N | .Z =>
    [.lda, .ldx, .ldy, .tax, .tay, .tsx, .txa, .txs, .tya, .pla, .adc, .sbc, .and, .ora, .eor, .asl, .lsr, .rol, .ror,
     .inc, .dec, .inx, .iny, .dex, .dey, .cmp, .cpx, .cpy, .bit, .plp, .rti]
  | .V => [.adc, .sbc, .bit, .clv, .plp, .rti]
  | .D => [.cld, .sed, .plp, .rti]
  | .I => [.cli, .sei, .brk, .plp, .rti]
  | .C => [.adc, .sbc, .asl, .lsr, .rol, .ror, .cmp, .cpx, .cpy, .clc, .sec, .plp, .rti]
  | .U | .B => []

/-- The instructions that write a register whatever their mode (R30, "writable by"). -/
def regWriters : Reg → List Mnemonic
  | .A => [.lda, .txa, .tya, .pla, .adc, .sbc, .and, .ora, .eor]
  | .X => [.ldx, .tax, .tsx, .inx, .dex]
  | .Y => [.ldy, .tay, .iny, .dey]
  | .SP => [.txs, .pha, .php, .pla, .plp, .jsr, .rts, .brk, .rti]

/-- The opcode map gives the mnemonic exactly these rows: opcode byte and mode. -/
def HasRows (mn : Mnemonic) (rows : List (Byte × AddrMode)) : Prop :=
  (∀ r ∈ rows, opcodeMap r.1 = (mn, r.2)) ∧ ∀ op, (opcodeMap op).1 = mn → op ∈ rows.map (·.1)

end Sys2Proof.Machine
end

