-- ==== Sys2Proof/Certificates/Slice0/Obligations.lean ====
section
/-! DEFINITION. The statements for the provers. In a statement about `exec i s`, `s` is the state a handler starts from: PC is past
the instruction (40_execution_cycle.md R135), so the instruction's address pc0 is `s.pc` less its length. A rule's "Encoding" and
"Operands" are said by `HasRows`: the opcode bytes that decode to the mnemonic, with their modes, are exactly those listed. A docstring
says where a statement rests on a choice that the spec marks as its own (a decision D<n> of 92_eei_decisions.md, a passage marked
derived or from general knowledge) or on one of the model's (a log entry); the opcode byte values are the spec's choice D23 and the
meanings of the mnemonics D22 throughout, and the pointer of IndirectY (D7, log entry 8) enters wherever `effectiveAddr` stands. -/

open Sys2Proof Sys2Proof.Machine

/-! ### Encoding (30_encoding.md) -/

/-- Every well-formed instruction has an encoding, of its length, that decodes to it, whatever bytes follow (R100, R102, R113). The
length of an `Invalid` is the spec's choice D1 (log entry 11). -/
def Obligations.DecodeOfEncodeIsTheInstruction : Prop :=
  ∀ i : Instr, i.wf = true →
    ∃ bytes, encode i = some bytes ∧ bytes.length = i.length ∧ ∀ rest, decode (bytes ++ rest) = .decoded i rest

/-- Bytes that decode give a well-formed instruction, and are its encoding followed by the rest (R100, R105). The length
of an `Invalid` is the spec's choice D1 (log entry 11). -/
def Obligations.EncodeOfDecodeIsTheBytes : Prop :=
  ∀ bytes i rest, decode bytes = .decoded i rest → i.wf = true ∧ ∃ own, encode i = some own ∧ bytes = own ++ rest

/-- "length = 1 + width(mode(decode(opcode)))" (R113, which the spec marks derived), the operand is the bytes of that width after
the opcode, and only a list that ends too soon is rejected. That an undefined opcode has width 0 is the spec's choice D1 (log
entry 11). -/
def Obligations.LengthIsFixedByTheOpcode : Prop :=
  ∀ (op : Byte) (tail : List Byte),
    (tail.length < (opcodeMap op).2.width → decode (op :: tail) = .rejected (.missingOperand op)) ∧
    ((opcodeMap op).2.width ≤ tail.length →
      ∃ i, decode (op :: tail) = .decoded i (tail.drop (opcodeMap op).2.width) ∧ i.length = 1 + (opcodeMap op).2.width ∧
        i.operandBytes = tail.take (opcodeMap op).2.width)

/-- The table is total: an opcode is one of the 105 of R112 and maps to (Invalid, Invalid), or its mode is one its mnemonic's rule
lists (R105). Which bytes are undefined is the spec's choice D23 (log entry 5). -/
def Obligations.OpcodeMapIsTotal : Prop :=
  invalidOpcodes.length = 105 ∧ invalidOpcodes.Nodup ∧
  ∀ op : Byte, (op ∈ invalidOpcodes ∧ opcodeMap op = (.invalid, .invalid)) ∨
    (op ∉ invalidOpcodes ∧ (opcodeMap op).1 ≠ .invalid ∧ (opcodeMap op).2 ∈ (opcodeMap op).1.modes)

/-- A few words written out from R100, R110 and R111 decode to the instruction they stand for (byte values: the spec's choice D23). -/
def Obligations.SampleWordsDecode : Prop :=
  decode [0xA9, 0x80] = .decoded (.lda (.immediate 0x80)) [] ∧
  decode [0x91, 0x22] = .decoded (.sta (.indirectY 0x22)) [] ∧
  decode [0x7D, 0xF0, 0xFF] = .decoded (.adc (.mem (.absoluteX 0xFFF0))) [] ∧
  decode [0x6A] = .decoded (.ror .accumulator) [] ∧
  decode [0xD0, 0xF8] = .decoded (.bne 0xF8) [] ∧
  decode [0x6C, 0xFF, 0x30] = .decoded (.jmp (.indirect 0x30FF)) [] ∧
  decode [0x00] = .decoded .brk [] ∧
  decode [0x02] = .decoded (.invalid 0x02) []

/-! ### The step (40_execution_cycle.md) -/

/-- Fetch and resolve (R132, R134): the opcode at PC, the raw value from the operand bytes after it, PC past the instruction, and
nothing else changed. The width 0 of an undefined opcode and the raw value 0 are the spec's choices D1 and D6. -/
def Obligations.FetchAndResolve : Prop :=
  ∀ s : State,
    s.fetch.opcode = s.read s.pc ∧
    ((opcodeMap s.fetch.opcode).2.width = 0 → s.fetch.raw = 0x0000 ∧ s.fetch.after = { s with pc := s.pc + 1#16 }) ∧
    ((opcodeMap s.fetch.opcode).2.width = 1 →
      s.fetch.raw.toNat = (s.read (s.pc + 1#16)).toNat ∧ s.fetch.after = { s with pc := s.pc + 2#16 }) ∧
    ((opcodeMap s.fetch.opcode).2.width = 2 →
      s.fetch.raw.toNat = (s.read (s.pc + 2#16)).toNat * 256 + (s.read (s.pc + 1#16)).toNat ∧
      s.fetch.after = { s with pc := s.pc + 3#16 })

/-- Where the bytes at PC decode to an instruction, a step is that instruction's meaning on the state whose PC is past it (R130). -/
def Obligations.StepRunsTheDecodedInstruction : Prop :=
  ∀ (s : State) (i : Instr) (rest : List Byte),
    decode [s.read s.pc, s.read (s.pc + 1#16), s.read (s.pc + 2#16)] = .decoded i rest →
      step s = exec i { s with pc := s.pc + BitVec.ofNat 16 i.length }

/-- The step report (R131, R812): PC at fetch, opcode, raw value, mnemonic, mode, and `illegal` exactly for an `Invalid`. The
indicator and the operand field are the spec's choices D1 and D19. -/
def Obligations.StepReportFields : Prop :=
  ∀ s : State,
    (report s).pc = s.pc ∧ (report s).opcode = s.read s.pc ∧ (report s).operand = s.fetch.raw ∧
    ((report s).mnemonic, (report s).mode) = opcodeMap (s.read s.pc) ∧
    (report s).mnemonic = s.fetch.instr.mnemonic ∧ (report s).mode = s.fetch.instr.mode ∧
    ((report s).illegal = true ↔ (opcodeMap (s.read s.pc)).1 = .invalid)

/-- PC after every instruction (R155, which the spec marks derived), from its address `s.pc`. The clause for `Invalid` is the
spec's choice D1 (log entry 11). -/
def Obligations.PCAfterEachInstruction : Prop :=
  ∀ s : State, ∃ t, step s = .next t ∧
    let i := s.fetch.instr
    let after := s.pc + BitVec.ofNat 16 i.length
    (i.mnemonic ∉ [.bcc, .bcs, .beq, .bne, .bpl, .bmi, .bvc, .bvs, .jmp, .jsr, .rts, .rti, .brk] → t.pc = after) ∧
    (i.mnemonic = .invalid → t.pc = s.pc + 1#16) ∧
    (∀ d, i = .bcc d → t.pc = if s.flag .C then s.pc + 2#16 else s.pc + 2#16 + sext d) ∧
    (∀ d, i = .bcs d → t.pc = if s.flag .C then s.pc + 2#16 + sext d else s.pc + 2#16) ∧
    (∀ d, i = .beq d → t.pc = if s.flag .Z then s.pc + 2#16 + sext d else s.pc + 2#16) ∧
    (∀ d, i = .bne d → t.pc = if s.flag .Z then s.pc + 2#16 else s.pc + 2#16 + sext d) ∧
    (∀ d, i = .bpl d → t.pc = if s.flag .N then s.pc + 2#16 else s.pc + 2#16 + sext d) ∧
    (∀ d, i = .bmi d → t.pc = if s.flag .N then s.pc + 2#16 + sext d else s.pc + 2#16) ∧
    (∀ d, i = .bvc d → t.pc = if s.flag .V then s.pc + 2#16 else s.pc + 2#16 + sext d) ∧
    (∀ d, i = .bvs d → t.pc = if s.flag .V then s.pc + 2#16 + sext d else s.pc + 2#16) ∧
    (∀ w, i = .jmp (.absolute w) → t.pc = w) ∧
    (∀ w, i = .jmp (.indirect w) → t.pc = joinBytes (s.read (indirectHighAddr w)) (s.read w)) ∧
    (∀ w, i = .jsr w → t.pc = w) ∧
    (i = .rts → t.pc = joinBytes (s.read (stackAddr (s.sp + 2#8))) (s.read (stackAddr (s.sp + 1#8))) + 1#16) ∧
    (i = .rti → t.pc = joinBytes (s.read (stackAddr (s.sp + 3#8))) (s.read (stackAddr (s.sp + 2#8)))) ∧
    (i = .brk → t.pc = joinBytes (s.read 0xFFFF#16) (s.read 0xFFFE#16))

/-- Every run of any number of steps completes, from every state: "nothing in this layer can fail" (R130, R700). -/
def Obligations.EveryRunCompletes : Prop := ∀ (n : Nat) (s : State), ∃ t, Host.Core.run core n s = .next t

/-- The effective addresses as numbers (R140, R141, R142, R143, R145), the Indirect target with its page-wrap defect (R144), the
branch target (R147) and the operand read (R150). -/
def Obligations.EffectiveAddresses : Prop :=
  ∀ (s : State) (b : Byte) (w : Word),
    (effectiveAddr s (.zeroPage b)).toNat = b.toNat ∧
    (effectiveAddr s (.zeroPageX b)).toNat = (b.toNat + s.x.toNat) % 256 ∧
    (effectiveAddr s (.zeroPageY b)).toNat = (b.toNat + s.y.toNat) % 256 ∧
    effectiveAddr s (.absolute w) = w ∧ jumpTarget s (.absolute w) = w ∧
    (effectiveAddr s (.absoluteX w)).toNat = (w.toNat + s.x.toNat) % 65536 ∧
    (effectiveAddr s (.absoluteY w)).toNat = (w.toNat + s.y.toNat) % 65536 ∧
    (jumpTarget s (.indirect w)).toNat =
      (s.read (BitVec.ofNat 16 (w.toNat / 256 * 256 + (w.toNat + 1) % 256))).toNat * 256 + (s.read w).toNat ∧
    (effectiveAddr s (.indirectX b)).toNat =
      (s.read (BitVec.ofNat 16 ((b.toNat + s.x.toNat + 1) % 256))).toNat * 256 +
        (s.read (BitVec.ofNat 16 ((b.toNat + s.x.toNat) % 256))).toNat ∧
    branchTarget w b = BitVec.ofInt 16 (w.toNat + b.toInt) ∧
    operandValue s (.immediate b) = b ∧ ∀ m, operandValue s (.mem m) = s.read (effectiveAddr s m)

/-- The effective address of IndirectY (R146). That the pointer's high byte comes from page 0 too is the spec's choice D7 (log
entry 8). -/
def Obligations.IndirectYAddress : Prop :=
  ∀ (s : State) (b : Byte),
    (effectiveAddr s (.indirectY b)).toNat =
      ((s.read (BitVec.ofNat 16 ((b.toNat + 1) % 256))).toNat * 256 + (s.read (BitVec.ofNat 16 b.toNat)).toNat +
        s.y.toNat) % 65536

/-! ### Memory and the stack -/

/-- Memory is plain storage (R73, the spec's choice D8): a read gives the byte most recently written, and a write changes only its
own byte. -/
def Obligations.MemoryIsPlainStorage : Prop :=
  ∀ (s : State) (addr other : Word) (v : Byte),
    (s.write addr v).read other = (if other = addr then v else s.read other) ∧
    (s.write addr v).status = s.status ∧ KeepsRegsBut [] s (s.write addr v) ∧ (s.write addr v).pc = s.pc

/-- Push and pop (R152, R153): the stack is a ring in page 1 (R34). -/
def Obligations.StackIsARingInPageOne : Prop :=
  ∀ (s : State) (v : Byte),
    (stackAddr s.sp).toNat = 0x0100 + s.sp.toNat ∧
    (s.push v).read (stackAddr s.sp) = v ∧ (s.push v).sp.toNat = (s.sp.toNat + 255) % 256 ∧
    KeepsMemoryBut [stackAddr s.sp] s (s.push v) ∧ KeepsRegsBut [.SP] s (s.push v) ∧
    (s.push v).pc = s.pc ∧ (s.push v).status = s.status ∧
    s.pop.2.sp.toNat = (s.sp.toNat + 1) % 256 ∧
    s.pop.1 = s.read (BitVec.ofNat 16 (0x0100 + (s.sp.toNat + 1) % 256)) ∧
    KeepsMemoryBut [] s s.pop.2 ∧ KeepsRegsBut [.SP] s s.pop.2 ∧ s.pop.2.pc = s.pc ∧ s.pop.2.status = s.status

/-! ### Load, store and transfer (41_load_store_transfer.md) -/

/-- LDA, LDX, LDY (R201, R202, R203). -/
def Obligations.LoadsCopyTheOperand : Prop :=
  HasRows .lda [(0xA9, .immediate), (0xA5, .zeroPage), (0xB5, .zeroPageX), (0xAD, .absolute), (0xBD, .absoluteX),
    (0xB9, .absoluteY), (0xA1, .indirectX), (0xB1, .indirectY)] ∧
  HasRows .ldx [(0xA2, .immediate), (0xA6, .zeroPage), (0xB6, .zeroPageY), (0xAE, .absolute), (0xBE, .absoluteY)] ∧
  HasRows .ldy [(0xA0, .immediate), (0xA4, .zeroPage), (0xB4, .zeroPageX), (0xAC, .absolute), (0xBC, .absoluteX)] ∧
  ∀ (o : ReadOperand) (s : State),
    (∃ t, exec (.lda o) s = .next t ∧ SetsRegNZ .A (operandValue s o) s t) ∧
    (∃ t, exec (.ldx o) s = .next t ∧ SetsRegNZ .X (operandValue s o) s t) ∧
    (∃ t, exec (.ldy o) s = .next t ∧ SetsRegNZ .Y (operandValue s o) s t)

/-- STA, STX, STY (R204, R205, R206); STA's pointer reads come before the write, and it does not read its target. -/
def Obligations.StoresWriteTheRegister : Prop :=
  HasRows .sta [(0x85, .zeroPage), (0x95, .zeroPageX), (0x8D, .absolute), (0x9D, .absoluteX), (0x99, .absoluteY),
    (0x81, .indirectX), (0x91, .indirectY)] ∧
  HasRows .stx [(0x86, .zeroPage), (0x96, .zeroPageY), (0x8E, .absolute)] ∧
  HasRows .sty [(0x84, .zeroPage), (0x94, .zeroPageX), (0x8C, .absolute)] ∧
  ∀ (m : MemOperand) (s : State),
    (∃ t, exec (.sta m) s = .next t ∧ StoresByte (effectiveAddr s m) s.a s t) ∧
    handlerAccesses (.sta m) s = pointerReads s m ++ [.write (effectiveAddr s m) s.a] ∧
    (∃ t, exec (.stx m) s = .next t ∧ StoresByte (effectiveAddr s m) s.x s t) ∧
    (∃ t, exec (.sty m) s = .next t ∧ StoresByte (effectiveAddr s m) s.y s t)

/-- TAX, TAY, TSX, TXA, TYA (R207 to R210, R212). -/
def Obligations.TransfersCopyARegister : Prop :=
  HasRows .tax [(0xAA, .implicit)] ∧ HasRows .tay [(0xA8, .implicit)] ∧ HasRows .tsx [(0xBA, .implicit)] ∧
  HasRows .txa [(0x8A, .implicit)] ∧ HasRows .tya [(0x98, .implicit)] ∧
  ∀ s : State,
    (∃ t, exec .tax s = .next t ∧ SetsRegNZ .X s.a s t) ∧
    (∃ t, exec .tay s = .next t ∧ SetsRegNZ .Y s.a s t) ∧
    (∃ t, exec .tsx s = .next t ∧ SetsRegNZ .X s.sp s t) ∧
    (∃ t, exec .txa s = .next t ∧ SetsRegNZ .A s.x s t) ∧
    (∃ t, exec .tya s = .next t ∧ SetsRegNZ .A s.y s t)

/-- TXS (R211): on this core it sets N and Z; without the parameter no flag changes. The parameter's value is the spec's choice D18
(log entry 4). -/
def Obligations.TransferXToStackPointer : Prop :=
  HasRows .txs [(0x9A, .implicit)] ∧ Config.txsSetsNZ = true ∧
  ∀ s : State, (∃ t, exec .txs s = .next t ∧ SetsRegNZ .SP s.x s t) ∧ transferToSP false s = { s with sp := s.x }

/-! ### Arithmetic and logic (42_arithmetic_logic.md) -/

/-- ADC (R301): the formulas when D = 0, the open parameter `DecimalArith` when D = 1, of which nothing is assumed (log entry 2). -/
def Obligations.AddWithCarry : Prop :=
  HasRows .adc [(0x69, .immediate), (0x65, .zeroPage), (0x75, .zeroPageX), (0x6D, .absolute), (0x7D, .absoluteX),
    (0x79, .absoluteY), (0x61, .indirectX), (0x71, .indirectY)] ∧
  ∀ (o : ReadOperand) (s : State), ∃ t, exec (.adc o) s = .next t ∧
    let m := operandValue s o
    let sum := s.a.toNat + m.toNat + (s.flag .C).toNat
    let r := BitVec.ofNat 8 sum
    SetsArith (if s.flag .D then Config.decimalAdc s.a m (s.flag .C)
      else { value := r, n := r.getLsbD 7, v := ((s.a ^^^ r) &&& (m ^^^ r) &&& 0x80#8) != 0x00#8, z := decide (r = 0x00#8), c := decide (sum > 0xFF) })
      s t

/-- SBC (R302): ADC with the operand's complement when D = 0, the open parameter `DecimalArith` when D = 1, of which nothing is
assumed (log entry 2). -/
def Obligations.SubtractWithBorrow : Prop :=
  HasRows .sbc [(0xE9, .immediate), (0xE5, .zeroPage), (0xF5, .zeroPageX), (0xED, .absolute), (0xFD, .absoluteX),
    (0xF9, .absoluteY), (0xE1, .indirectX), (0xF1, .indirectY)] ∧
  ∀ (o : ReadOperand) (s : State), ∃ t, exec (.sbc o) s = .next t ∧
    let m := operandValue s o
    let mc := 0xFF#8 ^^^ m
    let sum := s.a.toNat + mc.toNat + (s.flag .C).toNat
    let r := BitVec.ofNat 8 sum
    SetsArith (if s.flag .D then Config.decimalSbc s.a m (s.flag .C)
      else { value := r, n := r.getLsbD 7, v := ((s.a ^^^ r) &&& (mc ^^^ r) &&& 0x80#8) != 0x00#8, z := decide (r = 0x00#8), c := decide (sum > 0xFF) })
      s t

/-- ADC with D = 0 is exact (R300): with C the unsigned carry, and V exactly the signed overflow. -/
def Obligations.BinaryAddIsExact : Prop :=
  ∀ (o : ReadOperand) (s : State), s.flag .D = false → ∃ t, exec (.adc o) s = .next t ∧
    let m := operandValue s o
    let signed := s.a.toInt + m.toInt + (s.flag .C).toNat
    t.a.toNat + 256 * (t.flag .C).toNat = s.a.toNat + m.toNat + (s.flag .C).toNat ∧
    (t.flag .V = true ↔ signed < -128 ∨ 127 < signed) ∧ (t.flag .V = false → t.a.toInt = signed)

/-- SBC with D = 0 is exact (R300, R302): C = 1 exactly when there is no borrow, V exactly the signed overflow. -/
def Obligations.BinarySubtractIsExact : Prop :=
  ∀ (o : ReadOperand) (s : State), s.flag .D = false → ∃ t, exec (.sbc o) s = .next t ∧
    let m := operandValue s o
    let borrow := 1 - (s.flag .C).toNat
    let signed := s.a.toInt - m.toInt - borrow
    (t.flag .C = true ↔ m.toNat + borrow ≤ s.a.toNat) ∧
    t.a.toNat + m.toNat + borrow = s.a.toNat + (if t.flag .C then 0 else 256) ∧
    (t.flag .V = true ↔ signed < -128 ∨ 127 < signed) ∧ (t.flag .V = false → t.a.toInt = signed)

/-- AND, ORA, EOR (R303, R304, R305). Which operation each is, and that A receives it, the spec takes from general knowledge (D22). -/
def Obligations.LogicalOperations : Prop :=
  HasRows .and [(0x29, .immediate), (0x25, .zeroPage), (0x35, .zeroPageX), (0x2D, .absolute), (0x3D, .absoluteX),
    (0x39, .absoluteY), (0x21, .indirectX), (0x31, .indirectY)] ∧
  HasRows .ora [(0x09, .immediate), (0x05, .zeroPage), (0x15, .zeroPageX), (0x0D, .absolute), (0x1D, .absoluteX),
    (0x19, .absoluteY), (0x01, .indirectX), (0x11, .indirectY)] ∧
  HasRows .eor [(0x49, .immediate), (0x45, .zeroPage), (0x55, .zeroPageX), (0x4D, .absolute), (0x5D, .absoluteX),
    (0x59, .absoluteY), (0x41, .indirectX), (0x51, .indirectY)] ∧
  ∀ (o : ReadOperand) (s : State),
    (∃ t, exec (.and o) s = .next t ∧ SetsRegNZ .A (s.a &&& operandValue s o) s t) ∧
    (∃ t, exec (.ora o) s = .next t ∧ SetsRegNZ .A (s.a ||| operandValue s o) s t) ∧
    (∃ t, exec (.eor o) s = .next t ∧ SetsRegNZ .A (s.a ^^^ operandValue s o) s t)

/-- BIT (R306): Z from A & m, N and V from the operand's bits 7 and 6; A and C unchanged. -/
def Obligations.BitTest : Prop :=
  HasRows .bit [(0x24, .zeroPage), (0x2C, .absolute)] ∧
  ∀ (m : MemOperand) (s : State), ∃ t, exec (.bit m) s = .next t ∧
    let v := s.read (effectiveAddr s m)
    t.flag .Z = ((s.a &&& v) == 0x00#8) ∧ t.flag .N = v.getLsbD 7 ∧ t.flag .V = v.getLsbD 6 ∧
    KeepsRegsBut [] s t ∧ KeepsFlagsBut [.Z, .N, .V] s t ∧ KeepsMemoryBut [] s t ∧ t.pc = s.pc

/-! ### Shift, increment and decrement (43_shift_incdec.md) -/

/-- ASL, LSR, ROL, ROR (R401 to R404) on the accumulator or a memory cell. -/
def Obligations.ShiftsAndRotates : Prop :=
  HasRows .asl [(0x0A, .accumulator), (0x06, .zeroPage), (0x16, .zeroPageX), (0x0E, .absolute), (0x1E, .absoluteX)] ∧
  HasRows .lsr [(0x4A, .accumulator), (0x46, .zeroPage), (0x56, .zeroPageX), (0x4E, .absolute), (0x5E, .absoluteX)] ∧
  HasRows .rol [(0x2A, .accumulator), (0x26, .zeroPage), (0x36, .zeroPageX), (0x2E, .absolute), (0x3E, .absoluteX)] ∧
  HasRows .ror [(0x6A, .accumulator), (0x66, .zeroPage), (0x76, .zeroPageX), (0x6E, .absolute), (0x7E, .absoluteX)] ∧
  ∀ (l : Location) (s : State),
    let v := readLoc s (resolveLoc s l)
    let c := (s.flag .C).toNat
    (∃ t, exec (.asl l) s = .next t ∧ ShiftsTo l (BitVec.ofNat 8 (2 * v.toNat)) (v.getLsbD 7) s t) ∧
    (∃ t, exec (.lsr l) s = .next t ∧ ShiftsTo l (BitVec.ofNat 8 (v.toNat / 2)) (v.getLsbD 0) s t ∧ t.flag .N = false) ∧
    (∃ t, exec (.rol l) s = .next t ∧ ShiftsTo l (BitVec.ofNat 8 (2 * v.toNat + c)) (v.getLsbD 7) s t) ∧
    (∃ t, exec (.ror l) s = .next t ∧ ShiftsTo l (BitVec.ofNat 8 (v.toNat / 2 + 128 * c)) (v.getLsbD 0) s t ∧
      t.flag .N = s.flag .C)

/-- Nine ROLs of the accumulator restore A and C (R403), and ROR undoes ROL. -/
def Obligations.RotatesAreInvertible : Prop :=
  ∀ s : State,
    (∃ t, execSeq (List.replicate 9 (.rol .accumulator)) s = .next t ∧ t.a = s.a ∧ t.flag .C = s.flag .C) ∧
    ∃ t, execSeq [.rol .accumulator, .ror .accumulator] s = .next t ∧ t.a = s.a ∧ t.flag .C = s.flag .C

/-- INC, DEC (R405, R406): the cell modulo 256, N and Z from it, C and V unchanged. -/
def Obligations.IncrementDecrementMemory : Prop :=
  HasRows .inc [(0xE6, .zeroPage), (0xF6, .zeroPageX), (0xEE, .absolute), (0xFE, .absoluteX)] ∧
  HasRows .dec [(0xC6, .zeroPage), (0xD6, .zeroPageX), (0xCE, .absolute), (0xDE, .absoluteX)] ∧
  ∀ (m : MemOperand) (s : State),
    let addr := effectiveAddr s m
    let frame := fun (v : Byte) (t : State) => t.read addr = v ∧ NZOf v t ∧ KeepsMemoryBut [addr] s t ∧
      KeepsRegsBut [] s t ∧ KeepsFlagsBut [.N, .Z] s t ∧ t.pc = s.pc
    (∃ t, exec (.inc m) s = .next t ∧ frame (BitVec.ofNat 8 ((s.read addr).toNat + 1)) t) ∧
    (∃ t, exec (.dec m) s = .next t ∧ frame (BitVec.ofNat 8 ((s.read addr).toNat + 255)) t)

/-- INX, INY, DEX, DEY (R407 to R410). -/
def Obligations.IncrementDecrementRegister : Prop :=
  HasRows .inx [(0xE8, .implicit)] ∧ HasRows .iny [(0xC8, .implicit)] ∧ HasRows .dex [(0xCA, .implicit)] ∧
  HasRows .dey [(0x88, .implicit)] ∧
  ∀ s : State,
    (∃ t, exec .inx s = .next t ∧ SetsRegNZ .X (BitVec.ofNat 8 (s.x.toNat + 1)) s t) ∧
    (∃ t, exec .iny s = .next t ∧ SetsRegNZ .Y (BitVec.ofNat 8 (s.y.toNat + 1)) s t) ∧
    (∃ t, exec .dex s = .next t ∧ SetsRegNZ .X (BitVec.ofNat 8 (s.x.toNat + 255)) s t) ∧
    (∃ t, exec .dey s = .next t ∧ SetsRegNZ .Y (BitVec.ofNat 8 (s.y.toNat + 255)) s t)

/-! ### Compare, branch and jump (44_compare_branch_jump.md) -/

/-- CMP, CPX, CPY (R500 to R503). -/
def Obligations.ComparesSetCZN : Prop :=
  HasRows .cmp [(0xC9, .immediate), (0xC5, .zeroPage), (0xD5, .zeroPageX), (0xCD, .absolute), (0xDD, .absoluteX),
    (0xD9, .absoluteY), (0xC1, .indirectX), (0xD1, .indirectY)] ∧
  HasRows .cpx [(0xE0, .immediate), (0xE4, .zeroPage), (0xEC, .absolute)] ∧
  HasRows .cpy [(0xC0, .immediate), (0xC4, .zeroPage), (0xCC, .absolute)] ∧
  ∀ (o : ReadOperand) (s : State),
    (∃ t, exec (.cmp o) s = .next t ∧ Compares s.a (operandValue s o) s t) ∧
    (∃ t, exec (.cpx o) s = .next t ∧ Compares s.x (operandValue s o) s t) ∧
    (∃ t, exec (.cpy o) s = .next t ∧ Compares s.y (operandValue s o) s t)

/-- The branches (R510 to R518): PC alone changes, by the signed offset, when the condition holds. -/
def Obligations.BranchesTestOneFlag : Prop :=
  HasRows .bcc [(0x90, .relative)] ∧ HasRows .bcs [(0xB0, .relative)] ∧ HasRows .beq [(0xF0, .relative)] ∧
  HasRows .bne [(0xD0, .relative)] ∧ HasRows .bpl [(0x10, .relative)] ∧ HasRows .bmi [(0x30, .relative)] ∧
  HasRows .bvc [(0x50, .relative)] ∧ HasRows .bvs [(0x70, .relative)] ∧
  ∀ (d : Byte) (s : State),
    let taken : State := { s with pc := BitVec.ofInt 16 (s.pc.toNat + d.toInt) }
    exec (.bcc d) s = .next (if s.flag .C = false then taken else s) ∧
    exec (.bcs d) s = .next (if s.flag .C = true then taken else s) ∧
    exec (.beq d) s = .next (if s.flag .Z = true then taken else s) ∧
    exec (.bne d) s = .next (if s.flag .Z = false then taken else s) ∧
    exec (.bpl d) s = .next (if s.flag .N = false then taken else s) ∧
    exec (.bmi d) s = .next (if s.flag .N = true then taken else s) ∧
    exec (.bvc d) s = .next (if s.flag .V = false then taken else s) ∧
    exec (.bvs d) s = .next (if s.flag .V = true then taken else s)

/-- JMP (R520): PC alone changes; the high byte of an Indirect target comes from the pointer's own page. -/
def Obligations.JumpSetsPC : Prop :=
  HasRows .jmp [(0x4C, .absolute), (0x6C, .indirect)] ∧
  ∀ (w : Word) (s : State),
    exec (.jmp (.absolute w)) s = .next { s with pc := w } ∧
    exec (.jmp (.indirect w)) s =
      .next { s with pc := joinBytes (s.read (BitVec.ofNat 16 (w.toNat / 256 * 256 + (w.toNat + 1) % 256))) (s.read w) }

/-- JSR (R521): pushes the address of its last byte, PC - 1, high byte first, then jumps. -/
def Obligations.JumpToSubroutine : Prop :=
  HasRows .jsr [(0x20, .absolute)] ∧
  ∀ (w : Word) (s : State), ∃ t, exec (.jsr w) s = .next t ∧
    t.pc = w ∧ t.sp = s.sp - 2#8 ∧
    t.read (stackAddr s.sp) = highByte (s.pc - 1#16) ∧ t.read (stackAddr (s.sp - 1#8)) = lowByte (s.pc - 1#16) ∧
    KeepsMemoryBut [stackAddr s.sp, stackAddr (s.sp - 1#8)] s t ∧ KeepsRegsBut [.SP] s t ∧ KeepsFlagsBut [] s t

/-- RTS (R522): pops low then high byte and adds 1. -/
def Obligations.ReturnFromSubroutine : Prop :=
  HasRows .rts [(0x60, .implicit)] ∧
  ∀ s : State, ∃ t, exec .rts s = .next t ∧
    t.pc = joinBytes (s.read (stackAddr (s.sp + 2#8))) (s.read (stackAddr (s.sp + 1#8))) + 1#16 ∧ t.sp = s.sp + 2#8 ∧
    KeepsMemoryBut [] s t ∧ KeepsRegsBut [.SP] s t ∧ KeepsFlagsBut [] s t

/-- RTS after JSR continues after the JSR, with SP and every register and flag as before (R521, R522). -/
def Obligations.ReturnUndoesCall : Prop :=
  ∀ (w : Word) (s : State), ∃ u, execSeq [.jsr w, .rts] s = .next u ∧
    u.pc = s.pc ∧ KeepsRegsBut [] s u ∧ KeepsFlagsBut [] s u

/-! ### Stack, flags, system, invalid (45_stack_flags_system.md) -/

/-- PHA and PHP (R601, R602): PHP's byte has B and U forced to 1, and P is unchanged. -/
def Obligations.PushesWriteTheStack : Prop :=
  HasRows .pha [(0x48, .implicit)] ∧ HasRows .php [(0x08, .implicit)] ∧
  ∀ s : State,
    let frame := fun (v : Byte) (t : State) => t.read (stackAddr s.sp) = v ∧ t.sp = s.sp - 1#8 ∧
      KeepsMemoryBut [stackAddr s.sp] s t ∧ KeepsRegsBut [.SP] s t ∧ KeepsFlagsBut [] s t ∧ t.p = s.p ∧ t.pc = s.pc
    (∃ t, exec .pha s = .next t ∧ frame s.a t) ∧ (∃ t, exec .php s = .next t ∧ frame (s.status ||| 0x30#8) t)

/-- PLA (R603): A, N and Z from the pulled byte. That it sets N and Z is the spec's choice D22 (log entry 11). -/
def Obligations.PullAccumulator : Prop :=
  HasRows .pla [(0x68, .implicit)] ∧
  ∀ s : State, ∃ t, exec .pla s = .next t ∧
    let v := s.read (stackAddr (s.sp + 1#8))
    t.a = v ∧ NZOf v t ∧ t.sp = s.sp + 1#8 ∧
    KeepsRegsBut [.A, .SP] s t ∧ KeepsFlagsBut [.N, .Z] s t ∧ KeepsMemoryBut [] s t ∧ t.pc = s.pc

/-- PLP (R604, R50): P is (v & 0xCF) | (P & 0x10) | 0x20 for the pulled byte v. What becomes of bits 4 and 5 is the spec's choice D4
(log entry 6). -/
def Obligations.PullStatus : Prop :=
  HasRows .plp [(0x28, .implicit)] ∧
  ∀ s : State, ∃ t, exec .plp s = .next t ∧
    let v := s.read (stackAddr (s.sp + 1#8))
    t.status = (v &&& 0xCF#8) ||| (s.status &&& 0x10#8) ||| 0x20#8 ∧ (∀ f ∈ [Flag.N, .V, .D, .I, .Z, .C], t.flag f = getFlag v f) ∧
    KeepsFlagsBut [.N, .V, .D, .I, .Z, .C] s t ∧ t.sp = s.sp + 1#8 ∧
    KeepsRegsBut [.SP] s t ∧ KeepsMemoryBut [] s t ∧ t.pc = s.pc

/-- PHP then PLP leaves P and every register unchanged (R604), and PHA then PLA every register and every flag but N and Z. That PLP
keeps B is the spec's choice D4 (log entry 6), and that PLA sets N and Z its choice D22 (log entry 11). -/
def Obligations.PullUndoesPush : Prop :=
  ∀ s : State,
    (∃ u, execSeq [.php, .plp] s = .next u ∧ u.status = s.status ∧ KeepsRegsBut [] s u ∧ u.pc = s.pc) ∧
    (∃ u, execSeq [.pha, .pla] s = .next u ∧ KeepsRegsBut [] s u ∧ NZOf s.a u ∧ KeepsFlagsBut [.N, .Z] s u ∧ u.pc = s.pc)

/-- CLC, CLD, CLI, CLV, SEC, SED, SEI (R605 to R611, R612). -/
def Obligations.FlagInstructionsWriteOneFlag : Prop :=
  HasRows .clc [(0x18, .implicit)] ∧ HasRows .cld [(0xD8, .implicit)] ∧ HasRows .cli [(0x58, .implicit)] ∧
  HasRows .clv [(0xB8, .implicit)] ∧ HasRows .sec [(0x38, .implicit)] ∧ HasRows .sed [(0xF8, .implicit)] ∧
  HasRows .sei [(0x78, .implicit)] ∧
  ∀ s : State,
    (∃ t, exec .clc s = .next t ∧ SetsFlag .C false s t) ∧
    (∃ t, exec .cld s = .next t ∧ SetsFlag .D false s t) ∧
    (∃ t, exec .cli s = .next t ∧ SetsFlag .I false s t) ∧
    (∃ t, exec .clv s = .next t ∧ SetsFlag .V false s t) ∧
    (∃ t, exec .sec s = .next t ∧ SetsFlag .C true s t) ∧
    (∃ t, exec .sed s = .next t ∧ SetsFlag .D true s t) ∧
    (∃ t, exec .sei s = .next t ∧ SetsFlag .I true s t)

/-- BRK (R615, R712), from its own address `pc0`: pushes pc0 + 2 (high, low) and P with B and U set, sets I, and loads PC from the
vector. That "PC+2" is pc0 + 2 is the spec's choice D3, that D is unchanged its choice D20 (log entry 7), and bits 4 and 5 of the
pushed byte are its choice D4 (log entry 6). -/
def Obligations.BreakEntersTheHandler : Prop :=
  HasRows .brk [(0x00, .implicit)] ∧
  ∀ s : State, ∃ t, exec .brk s = .next t ∧
    let pc0 := s.pc - 1#16
    t.pc = joinBytes (s.read 0xFFFF#16) (s.read 0xFFFE#16) ∧ t.sp = s.sp - 3#8 ∧
    t.read (stackAddr s.sp) = highByte (pc0 + 2#16) ∧ t.read (stackAddr (s.sp - 1#8)) = lowByte (pc0 + 2#16) ∧
    t.read (stackAddr (s.sp - 2#8)) = s.status ||| 0x30#8 ∧
    KeepsMemoryBut [stackAddr s.sp, stackAddr (s.sp - 1#8), stackAddr (s.sp - 2#8)] s t ∧
    t.flag .I = true ∧ KeepsFlagsBut [.I] s t ∧ KeepsRegsBut [.SP] s t

/-- RTI (R616): pops the status (as PLP, the spec's choice D4, log entry 6), then PC, low and high. -/
def Obligations.ReturnFromInterrupt : Prop :=
  HasRows .rti [(0x40, .implicit)] ∧
  ∀ s : State, ∃ t, exec .rti s = .next t ∧
    let v := s.read (stackAddr (s.sp + 1#8))
    t.status = (v &&& 0xCF#8) ||| (s.status &&& 0x10#8) ||| 0x20#8 ∧ KeepsFlagsBut [.N, .V, .D, .I, .Z, .C] s t ∧
    t.pc = joinBytes (s.read (stackAddr (s.sp + 3#8))) (s.read (stackAddr (s.sp + 2#8))) ∧ t.sp = s.sp + 3#8 ∧
    KeepsRegsBut [.SP] s t ∧ KeepsMemoryBut [] s t

/-- RTI after BRK continues two bytes after the BRK with every register and flag, I included, as before (R713). That it is two bytes
is the spec's choice D3 (log entry 7), and that B comes back as it was its choice D4 (log entry 6). -/
def Obligations.ReturnUndoesBreak : Prop :=
  ∀ s : State, ∃ u, execSeq [.brk, .rti] s = .next u ∧
    u.pc = s.pc + 1#16 ∧ u.status = s.status ∧ KeepsRegsBut [] s u

/-- NOP (R617). -/
def Obligations.NoOperation : Prop := HasRows .nop [(0xEA, .implicit)] ∧ ∀ s : State, exec .nop s = .next s

/-- An undefined opcode (R620): PC moves one byte on, nothing else changes, and the report says illegal. The width 0 and the PC
advance are the spec's choice D1 (log entry 11). -/
def Obligations.InvalidOpcodeIsReportedAndSkipped : Prop :=
  (∀ (op : Byte) (s : State), exec (.invalid op) s = .next s) ∧
  ∀ s : State, s.read s.pc ∈ invalidOpcodes →
    step s = .next { s with pc := s.pc + 1#16 } ∧ report s =
      { pc := s.pc, opcode := s.read s.pc, operand := 0x0000, mnemonic := .invalid, mode := .invalid, illegal := true }

/-- The two events of a step (R700, R711): an illegal-opcode report exactly at the bytes of R112, Break exactly at 0x00, never
both. The spec marks R711 derived and its choice D15. -/
def Obligations.AtMostOneEventPerStep : Prop :=
  ∀ s : State,
    ((report s).illegal = true ↔ s.read s.pc ∈ invalidOpcodes) ∧ (s.fetch.instr = .brk ↔ s.read s.pc = 0x00) ∧
    ¬((report s).illegal = true ∧ s.fetch.instr = .brk)

/-! ### The whole machine -/

/-- No instruction outside a flag's writers changes it (R41, R42, R45 to R48, which the spec marks derived), and none changes B or U
(R43, R44, the spec's choice D4, log entry 6). -/
def Obligations.OnlyTheListedInstructionsWriteAFlag : Prop :=
  ∀ (i : Instr) (s t : State) (f : Flag), exec i s = .next t → i.mnemonic ∉ flagWriters f → t.flag f = s.flag f

/-- No instruction outside a register's writers changes it (R30); a shift changes A in Accumulator mode only. -/
def Obligations.OnlyTheListedInstructionsWriteARegister : Prop :=
  ∀ (i : Instr) (s t : State) (r : Reg), exec i s = .next t → i.mnemonic ∉ regWriters r →
    ¬(r = .A ∧ i.mode = .accumulator) → t.reg r = s.reg r

/-- Every read of P sees U = 1, in the pushed copies too, and no step changes the stored bit 5 where it is 1 (R43, the
spec's choice D4, log entry 6). -/
def Obligations.UnusedBitReadsOne : Prop :=
  ∀ s : State, s.flag .U = true ∧ getFlag (pushedStatus s.p) .U = true ∧
    (getFlag s.p .U = true → ∃ t, step s = .next t ∧ getFlag t.p .U = true)

/-- No instruction reads or writes the stored B (R44, the spec's choice D4, log entry 6): with B stored as `b`, every step does the
same and leaves B as `b`. -/
def Obligations.BreakBitIsNeitherReadNorWritten : Prop :=
  ∀ (s : State) (b : Bool), ∃ t, step s = .next t ∧
    step (s.withFlag .B b) = .next (t.withFlag .B b) ∧ t.flag .B = s.flag .B

/-- A step changes memory exactly by the writes of its access list, in order (R76, the spec's choice D8). The
list's values and addresses for BRK, PHP and IndirectY are its choices D3, D4 and D7 (log entries 6 to 8). -/
def Obligations.StepWritesExactlyItsAccesses : Prop :=
  ∀ s : State, ∃ t, step s = .next t ∧ t.mem = ((stepAccesses s).foldl Access.apply s).mem

/-- A step depends on memory only through the reads of its access list (R76, the spec's choice D8): another memory that agrees on
those addresses gives the same registers and the same accesses. The list's values and addresses for BRK, PHP and IndirectY are the
spec's choices D3, D4 and D7 (log entries 6 to 8). -/
def Obligations.StepReadsOnlyItsAccesses : Prop :=
  ∀ (s : State) (other : Memory),
    (∀ addr, Access.read addr ∈ stepAccesses s → ({ s with mem := other } : State).read addr = s.read addr) →
      ∃ t u, step s = .next t ∧ step { s with mem := other } = .next u ∧
        ({ t with mem := [] } : State) = { u with mem := [] } ∧ stepAccesses { s with mem := other } = stepAccesses s

/-- A store is seen by the next fetch of that byte (R83, R811; the spec marks them derived and its choice D16). -/
def Obligations.StoreIsSeenByFetch : Prop :=
  ∀ (m : MemOperand) (s : State), ∃ t, exec (.sta m) s = .next t ∧
    (t.jump (effectiveAddr s m)).fetch.opcode = s.a ∧
    (t.jump (effectiveAddr s m)).fetch.instr.mnemonic = (opcodeMap s.a).1

/-- Every step keeps the invariant: canonical memory (the model's form), U stored as 1, B stored as 0 (R43, R44, the spec's choice
D4, log entry 6). -/
def Obligations.StepKeepsInvariant : Prop := ∀ s t : State, s.Inv → step s = .next t → t.Inv

/-- The invariant holds at reset (R800). That the memory of `State.reset` lists nothing is the model's choice (log entry 1). -/
def Obligations.InvariantHoldsAtReset : Prop := State.reset.Inv

/-- Every state that any sequence of host calls (steps, resets, writes of memory and registers) reaches after a reset meets the
invariant; so the stored B is 0 and U is 1 in every state reached from reset (R44, R803; the spec's choice D4, log entry 6). What a
host write of the status byte does to B and U is the model's choice (log entry 15). -/
def Obligations.EveryReachableStateMeetsInvariant : Prop :=
  ∀ s : State, Reachable s → s.Inv ∧ s.flag .B = false ∧ s.flag .U = true

/-- `reset()` (R800, R801, R803): from every state, the registers named, PC from the vector, memory untouched; the registers before
it play no part. -/
def Obligations.ResetState : Prop :=
  ∀ s : State,
    hostCall .reset s = .next s.resetCore ∧
    s.resetCore.a = 0x00#8 ∧ s.resetCore.x = 0x00#8 ∧ s.resetCore.y = 0x00#8 ∧ s.resetCore.sp = 0xFD#8 ∧ s.resetCore.p = 0x24#8 ∧
    (∀ f, s.resetCore.flag f = decide (f = .U ∨ f = .I)) ∧
    s.resetCore.pc = joinBytes (s.read 0xFFFD#16) (s.read 0xFFFC#16) ∧ s.resetCore.mem = s.mem ∧
    ∀ u : State, u.mem = s.mem → u.resetCore = s.resetCore

/-- The model's reset state is a reset over a memory of zeros: the model's choice of `M0` (log entry 1). -/
def Obligations.ResetStateIsBootOfEmptyMemory : Prop :=
  State.reset = State.boot [] ∧ ∀ addr, State.reset.read addr = 0x00

/-- A fixed point is never left (R814 (b), the spec's choice D28): a step that writes no memory and keeps every register
keeps the state, for ever. -/
def Obligations.FixedPointIsNeverLeft : Prop :=
  ∀ s t : State, step s = .next t → isFixedPoint s t = true → t = s ∧ ∀ n, Host.Core.run core n s = .next s

/-- A run loop that halts on an illegal-opcode report halts right after an undefined opcode, in the state R620 gives (R814 (a), the
spec's choice D28). -/
def Obligations.HaltPolicyStopsAtUndefinedOpcode : Prop :=
  ∀ (n : Nat) (s t : State) (r : Report), hostRun .halt n s = (.illegal r, t) →
    r.illegal = true ∧ r.opcode ∈ invalidOpcodes ∧ t.pc = r.pc + 1#16 ∧ t.read r.pc = r.opcode

/-- Without an illegal opcode in the next `n` steps the host's policy makes no difference (R620; the open parameter of D2, log
entry 3). -/
def Obligations.PolicyMattersOnlyAtIllegalOpcodes : Prop :=
  ∀ (n : Nat) (s : State), NoIllegalFor n s → hostRun .halt n s = hostRun .continue n s
end

