-- ==== Sys2Proof/Laws/State.lean ====
section
/-! SUPPORT. One lemma per field per update of the state, true by `rfl`, and the reads that an update leaves alone. -/

namespace Sys2Proof.Machine

/-! #### `withStatus` -/

@[simp] theorem withStatus_a (s : State) (p : Byte) : (s.withStatus p).a = s.a := rfl
@[simp] theorem withStatus_x (s : State) (p : Byte) : (s.withStatus p).x = s.x := rfl
@[simp] theorem withStatus_y (s : State) (p : Byte) : (s.withStatus p).y = s.y := rfl
@[simp] theorem withStatus_sp (s : State) (p : Byte) : (s.withStatus p).sp = s.sp := rfl
@[simp] theorem withStatus_pc (s : State) (p : Byte) : (s.withStatus p).pc = s.pc := rfl
@[simp] theorem withStatus_p (s : State) (p : Byte) : (s.withStatus p).p = p := rfl
@[simp] theorem withStatus_mem (s : State) (p : Byte) : (s.withStatus p).mem = s.mem := rfl

/-! #### `withFlag` -/

@[simp] theorem withFlag_a (s : State) (f : Flag) (b : Bool) : (s.withFlag f b).a = s.a := rfl
@[simp] theorem withFlag_x (s : State) (f : Flag) (b : Bool) : (s.withFlag f b).x = s.x := rfl
@[simp] theorem withFlag_y (s : State) (f : Flag) (b : Bool) : (s.withFlag f b).y = s.y := rfl
@[simp] theorem withFlag_sp (s : State) (f : Flag) (b : Bool) : (s.withFlag f b).sp = s.sp := rfl
@[simp] theorem withFlag_pc (s : State) (f : Flag) (b : Bool) : (s.withFlag f b).pc = s.pc := rfl
@[simp] theorem withFlag_p (s : State) (f : Flag) (b : Bool) : (s.withFlag f b).p = setFlag s.p f b := rfl
@[simp] theorem withFlag_mem (s : State) (f : Flag) (b : Bool) : (s.withFlag f b).mem = s.mem := rfl

/-! #### `withNZ` -/

@[simp] theorem withNZ_a (s : State) (v : Byte) : (s.withNZ v).a = s.a := rfl
@[simp] theorem withNZ_x (s : State) (v : Byte) : (s.withNZ v).x = s.x := rfl
@[simp] theorem withNZ_y (s : State) (v : Byte) : (s.withNZ v).y = s.y := rfl
@[simp] theorem withNZ_sp (s : State) (v : Byte) : (s.withNZ v).sp = s.sp := rfl
@[simp] theorem withNZ_pc (s : State) (v : Byte) : (s.withNZ v).pc = s.pc := rfl
@[simp] theorem withNZ_p (s : State) (v : Byte) : (s.withNZ v).p = setNZ s.p v := rfl
@[simp] theorem withNZ_mem (s : State) (v : Byte) : (s.withNZ v).mem = s.mem := rfl

/-! #### `jump` -/

@[simp] theorem jump_a (s : State) (w : Word) : (s.jump w).a = s.a := rfl
@[simp] theorem jump_x (s : State) (w : Word) : (s.jump w).x = s.x := rfl
@[simp] theorem jump_y (s : State) (w : Word) : (s.jump w).y = s.y := rfl
@[simp] theorem jump_sp (s : State) (w : Word) : (s.jump w).sp = s.sp := rfl
@[simp] theorem jump_pc (s : State) (w : Word) : (s.jump w).pc = w := rfl
@[simp] theorem jump_p (s : State) (w : Word) : (s.jump w).p = s.p := rfl
@[simp] theorem jump_mem (s : State) (w : Word) : (s.jump w).mem = s.mem := rfl

/-! #### `write` -/

@[simp] theorem write_a (s : State) (addr : Word) (v : Byte) : (s.write addr v).a = s.a := rfl
@[simp] theorem write_x (s : State) (addr : Word) (v : Byte) : (s.write addr v).x = s.x := rfl
@[simp] theorem write_y (s : State) (addr : Word) (v : Byte) : (s.write addr v).y = s.y := rfl
@[simp] theorem write_sp (s : State) (addr : Word) (v : Byte) : (s.write addr v).sp = s.sp := rfl
@[simp] theorem write_pc (s : State) (addr : Word) (v : Byte) : (s.write addr v).pc = s.pc := rfl
@[simp] theorem write_p (s : State) (addr : Word) (v : Byte) : (s.write addr v).p = s.p := rfl
@[simp] theorem write_mem (s : State) (addr : Word) (v : Byte) : (s.write addr v).mem = s.mem.set addr.toNat v := rfl

/-! #### `withRegA` -/

@[simp] theorem withRegA_a (s : State) (v : Byte) : (s.withReg .A v).a = v := rfl
@[simp] theorem withRegA_x (s : State) (v : Byte) : (s.withReg .A v).x = s.x := rfl
@[simp] theorem withRegA_y (s : State) (v : Byte) : (s.withReg .A v).y = s.y := rfl
@[simp] theorem withRegA_sp (s : State) (v : Byte) : (s.withReg .A v).sp = s.sp := rfl
@[simp] theorem withRegA_pc (s : State) (v : Byte) : (s.withReg .A v).pc = s.pc := rfl
@[simp] theorem withRegA_p (s : State) (v : Byte) : (s.withReg .A v).p = s.p := rfl
@[simp] theorem withRegA_mem (s : State) (v : Byte) : (s.withReg .A v).mem = s.mem := rfl

/-! #### `withRegX` -/

@[simp] theorem withRegX_a (s : State) (v : Byte) : (s.withReg .X v).a = s.a := rfl
@[simp] theorem withRegX_x (s : State) (v : Byte) : (s.withReg .X v).x = v := rfl
@[simp] theorem withRegX_y (s : State) (v : Byte) : (s.withReg .X v).y = s.y := rfl
@[simp] theorem withRegX_sp (s : State) (v : Byte) : (s.withReg .X v).sp = s.sp := rfl
@[simp] theorem withRegX_pc (s : State) (v : Byte) : (s.withReg .X v).pc = s.pc := rfl
@[simp] theorem withRegX_p (s : State) (v : Byte) : (s.withReg .X v).p = s.p := rfl
@[simp] theorem withRegX_mem (s : State) (v : Byte) : (s.withReg .X v).mem = s.mem := rfl

/-! #### `withRegY` -/

@[simp] theorem withRegY_a (s : State) (v : Byte) : (s.withReg .Y v).a = s.a := rfl
@[simp] theorem withRegY_x (s : State) (v : Byte) : (s.withReg .Y v).x = s.x := rfl
@[simp] theorem withRegY_y (s : State) (v : Byte) : (s.withReg .Y v).y = v := rfl
@[simp] theorem withRegY_sp (s : State) (v : Byte) : (s.withReg .Y v).sp = s.sp := rfl
@[simp] theorem withRegY_pc (s : State) (v : Byte) : (s.withReg .Y v).pc = s.pc := rfl
@[simp] theorem withRegY_p (s : State) (v : Byte) : (s.withReg .Y v).p = s.p := rfl
@[simp] theorem withRegY_mem (s : State) (v : Byte) : (s.withReg .Y v).mem = s.mem := rfl

/-! #### `withRegSP` -/

@[simp] theorem withRegSP_a (s : State) (v : Byte) : (s.withReg .SP v).a = s.a := rfl
@[simp] theorem withRegSP_x (s : State) (v : Byte) : (s.withReg .SP v).x = s.x := rfl
@[simp] theorem withRegSP_y (s : State) (v : Byte) : (s.withReg .SP v).y = s.y := rfl
@[simp] theorem withRegSP_sp (s : State) (v : Byte) : (s.withReg .SP v).sp = v := rfl
@[simp] theorem withRegSP_pc (s : State) (v : Byte) : (s.withReg .SP v).pc = s.pc := rfl
@[simp] theorem withRegSP_p (s : State) (v : Byte) : (s.withReg .SP v).p = s.p := rfl
@[simp] theorem withRegSP_mem (s : State) (v : Byte) : (s.withReg .SP v).mem = s.mem := rfl

/-! #### `push` -/

@[simp] theorem push_a (s : State) (v : Byte) : (s.push v).a = s.a := rfl
@[simp] theorem push_x (s : State) (v : Byte) : (s.push v).x = s.x := rfl
@[simp] theorem push_y (s : State) (v : Byte) : (s.push v).y = s.y := rfl
@[simp] theorem push_sp (s : State) (v : Byte) : (s.push v).sp = s.sp - 1#8 := rfl
@[simp] theorem push_pc (s : State) (v : Byte) : (s.push v).pc = s.pc := rfl
@[simp] theorem push_p (s : State) (v : Byte) : (s.push v).p = s.p := rfl
@[simp] theorem push_mem (s : State) (v : Byte) : (s.push v).mem = s.mem.set (stackAddr s.sp).toNat v := rfl

/-! #### `pop` -/

@[simp] theorem pop_a (s : State) : (s.pop.2).a = s.a := rfl
@[simp] theorem pop_x (s : State) : (s.pop.2).x = s.x := rfl
@[simp] theorem pop_y (s : State) : (s.pop.2).y = s.y := rfl
@[simp] theorem pop_sp (s : State) : (s.pop.2).sp = s.sp + 1#8 := rfl
@[simp] theorem pop_pc (s : State) : (s.pop.2).pc = s.pc := rfl
@[simp] theorem pop_p (s : State) : (s.pop.2).p = s.p := rfl
@[simp] theorem pop_mem (s : State) : (s.pop.2).mem = s.mem := rfl
@[simp] theorem pop_value (s : State) : s.pop.1 = s.read (stackAddr (s.sp + 1#8)) := rfl

/-! #### `pushWord` -/

@[simp] theorem pushWord_a (s : State) (w : Word) : (s.pushWord w).a = s.a := rfl
@[simp] theorem pushWord_x (s : State) (w : Word) : (s.pushWord w).x = s.x := rfl
@[simp] theorem pushWord_y (s : State) (w : Word) : (s.pushWord w).y = s.y := rfl
@[simp] theorem pushWord_sp (s : State) (w : Word) : (s.pushWord w).sp = s.sp - 1#8 - 1#8 := rfl
@[simp] theorem pushWord_pc (s : State) (w : Word) : (s.pushWord w).pc = s.pc := rfl
@[simp] theorem pushWord_p (s : State) (w : Word) : (s.pushWord w).p = s.p := rfl
@[simp] theorem pushWord_mem (s : State) (w : Word) : (s.pushWord w).mem = (s.mem.set (stackAddr s.sp).toNat (highByte w)).set (stackAddr (s.sp - 1#8)).toNat (lowByte w) := rfl

/-! #### `popWord` -/

@[simp] theorem popWord_a (s : State) : (s.popWord.2).a = s.a := rfl
@[simp] theorem popWord_x (s : State) : (s.popWord.2).x = s.x := rfl
@[simp] theorem popWord_y (s : State) : (s.popWord.2).y = s.y := rfl
@[simp] theorem popWord_sp (s : State) : (s.popWord.2).sp = s.sp + 1#8 + 1#8 := rfl
@[simp] theorem popWord_pc (s : State) : (s.popWord.2).pc = s.pc := rfl
@[simp] theorem popWord_p (s : State) : (s.popWord.2).p = s.p := rfl
@[simp] theorem popWord_mem (s : State) : (s.popWord.2).mem = s.mem := rfl
@[simp] theorem popWord_value (s : State) :
    s.popWord.1 = joinBytes (s.read (stackAddr (s.sp + 1#8 + 1#8))) (s.read (stackAddr (s.sp + 1#8))) := rfl

/-! #### `popStatus` -/

@[simp] theorem popStatus_a (s : State) : (s.popStatus).a = s.a := rfl
@[simp] theorem popStatus_x (s : State) : (s.popStatus).x = s.x := rfl
@[simp] theorem popStatus_y (s : State) : (s.popStatus).y = s.y := rfl
@[simp] theorem popStatus_sp (s : State) : (s.popStatus).sp = s.sp + 1#8 := rfl
@[simp] theorem popStatus_pc (s : State) : (s.popStatus).pc = s.pc := rfl
@[simp] theorem popStatus_p (s : State) : (s.popStatus).p = restoredStatus s.p (s.read (stackAddr (s.sp + 1#8))) := rfl
@[simp] theorem popStatus_mem (s : State) : (s.popStatus).mem = s.mem := rfl

/-! #### `resetCore` -/

@[simp] theorem resetCore_a (s : State) : (s.resetCore).a = 0x00#8 := rfl
@[simp] theorem resetCore_x (s : State) : (s.resetCore).x = 0x00#8 := rfl
@[simp] theorem resetCore_y (s : State) : (s.resetCore).y = 0x00#8 := rfl
@[simp] theorem resetCore_sp (s : State) : (s.resetCore).sp = 0xFD#8 := rfl
@[simp] theorem resetCore_pc (s : State) : (s.resetCore).pc = s.readPair 0xFFFC#16 0xFFFD#16 := rfl
@[simp] theorem resetCore_p (s : State) : (s.resetCore).p = 0x24#8 := rfl
@[simp] theorem resetCore_mem (s : State) : (s.resetCore).mem = s.mem := rfl

/-! #### Registers by name -/

@[simp] theorem reg_A (s : State) : s.reg .A = s.a := rfl
@[simp] theorem reg_X (s : State) : s.reg .X = s.x := rfl
@[simp] theorem reg_Y (s : State) : s.reg .Y = s.y := rfl
@[simp] theorem reg_SP (s : State) : s.reg .SP = s.sp := rfl

theorem reg_withReg (s : State) (r r' : Reg) (v : Byte) :
    (s.withReg r v).reg r' = if r' = r then v else s.reg r' := by
  cases r <;> cases r' <;> rfl

@[simp] theorem withReg_pc (s : State) (r : Reg) (v : Byte) : (s.withReg r v).pc = s.pc := by cases r <;> rfl
@[simp] theorem withReg_p (s : State) (r : Reg) (v : Byte) : (s.withReg r v).p = s.p := by cases r <;> rfl
@[simp] theorem withReg_mem (s : State) (r : Reg) (v : Byte) : (s.withReg r v).mem = s.mem := by cases r <;> rfl

@[simp] theorem reg_withStatus (s : State) (p : Byte) (r : Reg) : (s.withStatus p).reg r = s.reg r := by cases r <;> rfl
@[simp] theorem reg_withFlag (s : State) (f : Flag) (b : Bool) (r : Reg) : (s.withFlag f b).reg r = s.reg r := by
  cases r <;> rfl
@[simp] theorem reg_withNZ (s : State) (v : Byte) (r : Reg) : (s.withNZ v).reg r = s.reg r := by cases r <;> rfl
@[simp] theorem reg_jump (s : State) (w : Word) (r : Reg) : (s.jump w).reg r = s.reg r := by cases r <;> rfl
@[simp] theorem reg_write (s : State) (addr : Word) (v : Byte) (r : Reg) : (s.write addr v).reg r = s.reg r := by
  cases r <;> rfl

/-! #### Reads of memory through updates of registers -/

@[simp] theorem read_withStatus (s : State) (p : Byte) (addr : Word) : (s.withStatus p).read addr = s.read addr := rfl
@[simp] theorem read_withFlag (s : State) (f : Flag) (b : Bool) (addr : Word) :
    (s.withFlag f b).read addr = s.read addr := rfl
@[simp] theorem read_withNZ (s : State) (v : Byte) (addr : Word) : (s.withNZ v).read addr = s.read addr := rfl
@[simp] theorem read_jump (s : State) (w addr : Word) : (s.jump w).read addr = s.read addr := rfl
@[simp] theorem read_withReg (s : State) (r : Reg) (v : Byte) (addr : Word) :
    (s.withReg r v).read addr = s.read addr := by simp [State.read]
@[simp] theorem read_pop (s : State) (addr : Word) : s.pop.2.read addr = s.read addr := rfl
@[simp] theorem read_popStatus (s : State) (addr : Word) : s.popStatus.read addr = s.read addr := rfl
@[simp] theorem read_popWord (s : State) (addr : Word) : s.popWord.2.read addr = s.read addr := rfl

end Sys2Proof.Machine
end

