-- ==== Sys2Proof/Laws/Flags.lean ====
section
/-! SUPPORT. The laws of the status byte: what each flag is after each computation on P. -/

namespace Sys2Proof.Machine

theorem flagBit_lt (f : Flag) : flagBit f < 8 := by cases f <;> decide

theorem flagBit_inj {f g : Flag} : flagBit f = flagBit g ↔ f = g := by
  cases f <;> cases g <;> decide

/-- Writing a flag writes that bit and no other. -/
@[simp] theorem getFlag_setFlag (p : Byte) (f g : Flag) (b : Bool) :
    getFlag (setFlag p f b) g = if g = f then b else getFlag p g := by
  cases f <;> cases g <;> revert p b <;> decide

@[simp] theorem getFlag_visible (p : Byte) (g : Flag) :
    getFlag (visibleStatus p) g = if g = .U then true else getFlag p g := by
  cases g <;> revert p <;> decide

@[simp] theorem getFlag_pushed (p : Byte) (g : Flag) :
    getFlag (pushedStatus p) g = if g = .U ∨ g = .B then true else getFlag p g := by
  cases g <;> revert p <;> decide

/-- PLP and RTI restore every flag but B and U (R50). -/
@[simp] theorem getFlag_restored (p v : Byte) (g : Flag) :
    getFlag (restoredStatus p v) g = if g = .U then true else if g = .B then getFlag p .B else getFlag v g := by
  cases g <;> simp [restoredStatus, getFlag, flagBit]

@[simp] theorem getFlag_setNZ (p v : Byte) (g : Flag) :
    getFlag (setNZ p v) g = if g = .N then v.getLsbD 7 else if g = .Z then v == 0x00#8 else getFlag p g := by
  simp [setNZ]

/-! ### Flags of the state -/

theorem flag_eq (s : State) (g : Flag) : s.flag g = if g = .U then true else getFlag s.p g := by
  simp [State.flag, State.status]

@[simp] theorem flag_U (s : State) : s.flag .U = true := by simp [flag_eq]

/-- The flags depend on P alone. -/
theorem flag_congr {s t : State} (h : t.p = s.p) (g : Flag) : t.flag g = s.flag g := by simp [flag_eq, h]

@[simp] theorem flag_withStatus (s : State) (p : Byte) (g : Flag) :
    (s.withStatus p).flag g = if g = .U then true else getFlag p g := by simp [flag_eq]

theorem flag_withFlag (s : State) (f g : Flag) (b : Bool) (h : f ≠ .U) :
    (s.withFlag f b).flag g = if g = f then b else s.flag g := by
  by_cases hg : g = f
  · simp [flag_eq, hg, h]
  · simp [flag_eq, hg]

@[simp] theorem flag_withNZ (s : State) (v : Byte) (g : Flag) :
    (s.withNZ v).flag g = if g = .N then v.getLsbD 7 else if g = .Z then v == 0x00#8 else s.flag g := by
  cases g <;> simp [flag_eq]

@[simp] theorem flag_jump (s : State) (w : Word) (g : Flag) : (s.jump w).flag g = s.flag g := rfl
@[simp] theorem flag_write (s : State) (addr : Word) (v : Byte) (g : Flag) : (s.write addr v).flag g = s.flag g := rfl
@[simp] theorem flag_withReg (s : State) (r : Reg) (v : Byte) (g : Flag) : (s.withReg r v).flag g = s.flag g :=
  flag_congr (withReg_p s r v) g
@[simp] theorem flag_push (s : State) (v : Byte) (g : Flag) : (s.push v).flag g = s.flag g := rfl
@[simp] theorem flag_pushWord (s : State) (w : Word) (g : Flag) : (s.pushWord w).flag g = s.flag g := rfl
@[simp] theorem flag_pop (s : State) (g : Flag) : s.pop.2.flag g = s.flag g := rfl
@[simp] theorem flag_popWord (s : State) (g : Flag) : s.popWord.2.flag g = s.flag g := rfl

theorem flag_popStatus (s : State) (g : Flag) :
    s.popStatus.flag g =
      if g = .U then true else if g = .B then s.flag .B else getFlag (s.read (stackAddr (s.sp + 1#8))) g := by
  cases g <;> simp [flag_eq]

end Sys2Proof.Machine
end

