-- ==== Sys2Proof/Laws/Memory.lean ====
section
/-! SUPPORT. The laws of memory: a read after a write, and that every operation keeps the canonical form. -/

namespace Sys2Proof.Machine

/-! ### Reading after an operation, for any list -/

theorem get_erase_self (m : Memory) (addr : Nat) : (Memory.erase m addr).get addr = Config.unlistedByte addr := by
  induction m with
  | nil => rfl
  | cons c m ih =>
    by_cases h : c.1 = addr
    · simpa [Memory.erase, h] using ih
    · simpa [Memory.erase, Memory.get, h] using ih

theorem get_erase_ne (m : Memory) {addr b : Nat} (hne : b ≠ addr) : (Memory.erase m addr).get b = m.get b := by
  induction m with
  | nil => rfl
  | cons c m ih =>
    by_cases h : c.1 = addr
    · have hcb : ¬ c.1 = b := fun hb => hne (hb.symm.trans h)
      simpa [Memory.erase, Memory.get, h, hcb, Ne.symm hne] using ih
    · by_cases hb : c.1 = b
      · simp [Memory.erase, Memory.get, hb, hne]
      · simpa [Memory.erase, Memory.get, h, hb] using ih

theorem get_insert_self (m : Memory) (addr : Nat) (v : Byte) : (Memory.insert m addr v).get addr = v := by
  induction m with
  | nil => simp [Memory.insert, Memory.get]
  | cons c m ih =>
    obtain ⟨b, w⟩ := c
    by_cases hlt : addr < b
    · simp [Memory.insert, Memory.get, hlt]
    · by_cases heq : addr = b
      · simp [Memory.insert, Memory.get, heq]
      · simp [Memory.insert, Memory.get, hlt, heq, Ne.symm heq, ih]

theorem get_insert_ne (m : Memory) {addr b : Nat} (v : Byte) (hne : b ≠ addr) :
    (Memory.insert m addr v).get b = m.get b := by
  induction m with
  | nil => simp [Memory.insert, Memory.get, Ne.symm hne]
  | cons c m ih =>
    obtain ⟨d, w⟩ := c
    by_cases hlt : addr < d
    · simp [Memory.insert, Memory.get, hlt, Ne.symm hne]
    · by_cases heq : addr = d
      · subst heq
        simp [Memory.insert, Memory.get, Ne.symm hne]
      · simp [Memory.insert, Memory.get, hlt, heq, ih]

/-- A read after a write, anywhere. -/
theorem get_set (m : Memory) (addr b : Nat) (v : Byte) :
    (m.set addr v).get b = if b = addr then v else m.get b := by
  unfold Memory.set
  by_cases hb : b = addr
  · subst hb
    by_cases hv : v = Config.unlistedByte b
    · simp [hv, get_erase_self]
    · simp [hv, get_insert_self]
  · by_cases hv : v = Config.unlistedByte addr
    · simp [hv, hb, get_erase_ne m hb]
    · simp [hv, hb, get_insert_ne m v hb]

theorem read_write (s : State) (addr b : Word) (v : Byte) :
    (s.write addr v).read b = if b = addr then v else s.read b := by
  simp [State.read, State.write, get_set, BitVec.toNat_inj]

@[simp] theorem read_write_self (s : State) (addr : Word) (v : Byte) : (s.write addr v).read addr = v := by
  simp [read_write]

theorem read_write_ne (s : State) {addr b : Word} (v : Byte) (h : b ≠ addr) : (s.write addr v).read b = s.read b := by
  simp [read_write, h]

/-! ### The canonical form -/

theorem wf_nil : Memory.wf [] := by simp [Memory.wf]

theorem wf_erase {m : Memory} (h : m.wf) (addr : Nat) : (Memory.erase m addr).wf :=
  ⟨h.1.sublist List.filter_sublist, fun c hc => h.2 c (List.mem_of_mem_filter hc)⟩

theorem mem_insert {m : Memory} {addr : Nat} {v : Byte} {c : Host.Cell} (h : c ∈ Memory.insert m addr v) :
    c = (addr, v) ∨ c ∈ m := by
  induction m with
  | nil => simpa [Memory.insert] using h
  | cons d m ih =>
    obtain ⟨b, w⟩ := d
    unfold Memory.insert at h
    split at h
    · simpa using h
    · split at h
      · rcases List.mem_cons.mp h with h | h
        · exact .inl h
        · exact .inr (List.mem_cons_of_mem _ h)
      · rcases List.mem_cons.mp h with h | h
        · exact .inr (h ▸ List.mem_cons_self)
        · exact (ih h).imp_right (List.mem_cons_of_mem _)

theorem wf_insert {m : Memory} (h : m.wf) {addr : Nat} (ha : addr < 65536) {v : Byte}
    (hv : v ≠ Config.unlistedByte addr) : (Memory.insert m addr v).wf := by
  refine ⟨?_, fun c hc => (mem_insert hc).elim (fun e => e ▸ ⟨ha, hv⟩) (h.2 c)⟩
  have hs := h.1
  clear h hv
  induction m with
  | nil => simp [Memory.insert]
  | cons d m ih =>
    obtain ⟨b, w⟩ := d
    obtain ⟨hb, hm⟩ := List.pairwise_cons.mp hs
    unfold Memory.insert
    split
    · rename_i hlt
      refine List.pairwise_cons.mpr ⟨fun c hc => ?_, hs⟩
      rcases List.mem_cons.mp hc with hc | hc
      · exact hc ▸ hlt
      · exact Nat.lt_trans hlt (hb c hc)
    · split
      · rename_i heq
        exact List.pairwise_cons.mpr ⟨fun c hc => heq ▸ hb c hc, hm⟩
      · refine List.pairwise_cons.mpr ⟨fun c hc => ?_, ih hm⟩
        rcases mem_insert hc with hc | hc
        · subst hc
          show b < addr
          omega
        · exact hb c hc

/-- Every store keeps the canonical form. -/
theorem wf_set {m : Memory} (h : m.wf) {addr : Nat} (ha : addr < 65536) (v : Byte) : (m.set addr v).wf := by
  unfold Memory.set
  split
  · exact wf_erase h addr
  · exact wf_insert h ha (by assumption)

theorem wf_write {s : State} (h : s.mem.wf) (addr : Word) (v : Byte) : (s.write addr v).mem.wf :=
  wf_set h addr.isLt v

theorem wf_reset : State.reset.mem.wf := wf_nil

/-! ### Equal memories are equal data -/

theorem get_of_below {m : Memory} {addr : Nat} (h : ∀ c ∈ m, addr < c.1) : m.get addr = Config.unlistedByte addr := by
  induction m with
  | nil => rfl
  | cons c m ih =>
    have hc := h c List.mem_cons_self
    simp only [Memory.get, show ¬ c.1 = addr by omega, if_false]
    exact ih fun d hd => h d (List.mem_cons_of_mem _ hd)

/-- A cell of a canonical memory is seen by the read of its address. -/
theorem get_head_ne {c : Host.Cell} {m : Memory} (h : Memory.wf (c :: m)) :
    c.1 < 65536 ∧ Memory.get (c :: m) c.1 = c.2 ∧ c.2 ≠ Config.unlistedByte c.1 := by
  have hc := h.2 c List.mem_cons_self
  exact ⟨hc.1, by simp [Memory.get], hc.2⟩

/-- Canonical memories that read alike are equal. -/
theorem memory_ext {m n : Memory} (hm : m.wf) (hn : n.wf) (h : ∀ addr : Nat, addr < 65536 → m.get addr = n.get addr) : m = n := by
  induction m generalizing n with
  | nil =>
    cases n with
    | nil => rfl
    | cons d n =>
      obtain ⟨hd, hget, hne⟩ := get_head_ne hn
      exact absurd (hget.symm.trans (h _ hd).symm) hne
  | cons c m ih =>
    obtain ⟨hc, hcget, hcne⟩ := get_head_ne hm
    cases n with
    | nil => exact absurd (hcget.symm.trans (h _ hc)) hcne
    | cons d n =>
      obtain ⟨hd, hdget, hdne⟩ := get_head_ne hn
      obtain ⟨hcm, hm'⟩ := List.pairwise_cons.mp hm.1
      obtain ⟨hdn, hn'⟩ := List.pairwise_cons.mp hn.1
      have haddr : c.1 = d.1 := by
        by_contra hne
        rcases Nat.lt_or_gt_of_ne hne with hlt | hlt
        · have hu : Memory.get (d :: n) c.1 = Config.unlistedByte c.1 := get_of_below fun x hx => by
            rcases List.mem_cons.mp hx with rfl | hx
            · exact hlt
            · exact Nat.lt_trans hlt (hdn x hx)
          exact hcne (hcget.symm.trans ((h _ hc).trans hu))
        · have hu : Memory.get (c :: m) d.1 = Config.unlistedByte d.1 := get_of_below fun x hx => by
            rcases List.mem_cons.mp hx with rfl | hx
            · exact hlt
            · exact Nat.lt_trans hlt (hcm x hx)
          exact hdne (hdget.symm.trans ((h _ hd).symm.trans hu))
      have hcd : c = d := Prod.ext haddr (hcget.symm.trans ((h _ hc).trans (haddr ▸ hdget)))
      subst hcd
      refine congrArg _ (ih ⟨hm', fun x hx => hm.2 x (List.mem_cons_of_mem _ hx)⟩
        ⟨hn', fun x hx => hn.2 x (List.mem_cons_of_mem _ hx)⟩ fun addr ha => ?_)
      by_cases hca : c.1 = addr
      · rw [get_of_below fun x hx => hca ▸ hcm x hx, get_of_below fun x hx => hca ▸ hdn x hx]
      · simpa [Memory.get, hca] using h addr ha

end Sys2Proof.Machine
end

