-- ==== Sys2Proof/Laws/Ops.lean ====
section
/-! SUPPORT. What each shared operation does, said once: the stack and the exception, reset, the meanings of each shape, and that
each keeps the invariant. -/

namespace Sys2Proof.Machine

/-! ### Words -/

theorem highByte_join (hi lo : Byte) : highByte (joinBytes hi lo) = hi := by
  apply BitVec.eq_of_toNat_eq
  simp only [highByte, joinBytes, BitVec.extractLsb'_toNat, BitVec.toNat_append]
  rw [← Nat.shiftLeft_add_eq_or_of_lt lo.isLt]
  have := hi.isLt
  have := lo.isLt
  simp [Nat.shiftLeft_eq, Nat.shiftRight_eq_div_pow]
  omega

theorem toNat_join (hi lo : Byte) : (joinBytes hi lo).toNat = hi.toNat * 256 + lo.toNat := by
  simp only [joinBytes, BitVec.toNat_append]
  rw [← Nat.shiftLeft_add_eq_or_of_lt lo.isLt, Nat.shiftLeft_eq]

theorem join_bytes (w : Word) : joinBytes (highByte w) (lowByte w) = w := by
  apply BitVec.eq_of_toNat_eq
  have := w.isLt
  simp [toNat_join, highByte, lowByte, BitVec.extractLsb'_toNat, Nat.shiftRight_eq_div_pow]
  omega

theorem lowByte_join (hi lo : Byte) : lowByte (joinBytes hi lo) = lo := by
  apply BitVec.eq_of_toNat_eq
  have := lo.isLt
  simp [lowByte, BitVec.extractLsb'_toNat, toNat_join]
  omega

@[simp] theorem lowByte_zext (b : Byte) : lowByte (zext b) = b := by
  apply BitVec.eq_of_toNat_eq
  have := b.isLt
  simp [lowByte, zext, BitVec.extractLsb'_toNat]
  omega

/-! ### The stack -/

/-- A stack address lies in page 1 (R34). -/
theorem toNat_stackAddr (sp : Byte) : (stackAddr sp).toNat = 256 + sp.toNat := by
  revert sp
  decide

theorem stackAddr_inj {p q : Byte} : stackAddr p = stackAddr q ↔ p = q := by
  rw [← BitVec.toNat_inj, toNat_stackAddr, toNat_stackAddr, Nat.add_left_cancel_iff, BitVec.toNat_inj]

/-- No stack address is a vector: the pushes of BRK never change the vector it reads (R615). -/
theorem stackAddr_ne_high (sp : Byte) {w : Word} (h : 512 ≤ w.toNat) : w ≠ stackAddr sp := by
  intro e
  have := sp.isLt
  rw [e, toNat_stackAddr] at h
  omega

theorem read_push (s : State) (v : Byte) (addr : Word) :
    (s.push v).read addr = if addr = stackAddr s.sp then v else s.read addr :=
  read_write s (stackAddr s.sp) addr v

theorem read_pushWord (s : State) (w addr : Word) :
    (s.pushWord w).read addr =
      if addr = stackAddr (s.sp - 1#8) then lowByte w else if addr = stackAddr s.sp then highByte w else s.read addr := by
  simp [State.pushWord, read_push]

/-- The slots of a pair differ (R152). -/
theorem stackAddr_ne_below (sp : Byte) : stackAddr sp ≠ stackAddr (sp - 1#8) := by
  rw [ne_eq, stackAddr_inj]
  bv_omega

/-- Popping a word that was pushed gives it back (R521, R522). -/
theorem popWord_pushWord (s : State) (w : Word) : (s.pushWord w).popWord.1 = w := by
  simp only [popWord_value, pushWord_sp, read_pushWord]
  simp [stackAddr_ne_below, join_bytes]

/-- Everything taking Break does (R712): PC, SP, P and the three stored bytes. -/
theorem takeBreak_eq (s : State) (ret : Word) :
    s.takeBreak ret =
      { ((s.pushWord ret).push (pushedStatus s.p)) with
        p := setFlag s.p .I true
        pc := s.readPair 0xFFFE#16 0xFFFF#16 } := by
  have h : ∀ w : Word, 512 ≤ w.toNat → ((s.pushWord ret).push (pushedStatus s.p)).read w = s.read w := fun w hw => by
    simp [read_push, read_pushWord, stackAddr_ne_high _ hw]
  have hpair : ((s.pushWord ret).push (pushedStatus s.p)).readPair 0xFFFE#16 0xFFFF#16 = s.readPair 0xFFFE#16 0xFFFF#16 := by
    simp only [State.readPair]
    rw [h _ (by decide), h _ (by decide)]
  exact congrArg (fun w => ({ ((s.pushWord ret).push (pushedStatus s.p)) with p := setFlag s.p .I true, pc := w } : State)) hpair

/-! ### Reset -/

/-- `reset()` from any state is the boot over its memory: the registers before play no part (R803, R804). -/
theorem resetCore_eq_boot (s : State) : s.resetCore = State.boot s.mem := rfl

/-! ### The invariant -/

theorem inv_write {s : State} (h : s.Inv) (addr : Word) (v : Byte) : (s.write addr v).Inv :=
  ⟨wf_write h.memory addr v, h.unusedIsOne, h.breakIsZero⟩

theorem inv_withReg {s : State} (h : s.Inv) (r : Reg) (v : Byte) : (s.withReg r v).Inv :=
  ⟨by simpa using h.memory, by simpa using h.unusedIsOne, by simpa using h.breakIsZero⟩

theorem inv_jump {s : State} (h : s.Inv) (w : Word) : (s.jump w).Inv := ⟨h.memory, h.unusedIsOne, h.breakIsZero⟩

/-- A new P keeps the invariant when it keeps U and B. -/
theorem inv_withStatus {s : State} (h : s.Inv) {p : Byte} (hu : getFlag p .U = true) (hb : getFlag p .B = false) :
    (s.withStatus p).Inv := ⟨h.memory, hu, hb⟩

theorem inv_withFlag {s : State} (h : s.Inv) {f : Flag} (hu : f ≠ .U) (hb : f ≠ .B) (b : Bool) : (s.withFlag f b).Inv :=
  inv_withStatus h (by simp [hu.symm, h.unusedIsOne]) (by simp [hb.symm, h.breakIsZero])

theorem inv_withNZ {s : State} (h : s.Inv) (v : Byte) : (s.withNZ v).Inv :=
  inv_withStatus h (by simp [h.unusedIsOne]) (by simp [h.breakIsZero])

theorem inv_push {s : State} (h : s.Inv) (v : Byte) : (s.push v).Inv := inv_withReg (inv_write h _ _) _ _

theorem inv_pop {s : State} (h : s.Inv) : s.pop.2.Inv := inv_withReg h .SP (s.sp + 1#8)

theorem inv_popStatus {s : State} (h : s.Inv) : s.popStatus.Inv :=
  inv_withStatus (inv_pop h) (by simp) (by simp [h.breakIsZero])

theorem inv_resetCore {s : State} (h : s.mem.wf) : s.resetCore.Inv := ⟨h, (by decide : getFlag 0x24#8 .U = true), (by decide : getFlag 0x24#8 .B = false)⟩

/-! ### Meanings -/

/-- Every meaning answers a next state (R135: "Every handler is total"). -/
theorem exec_next (i : Instr) (s : State) : ∃ t, exec i s = .next t := by
  cases i <;> exact ⟨_, rfl⟩

/-- Everything a copy to a register does (R200). -/
theorem copyTo_sets (r : Reg) (v : Byte) (s : State) : SetsRegNZ r v s (copyTo r v s) := by
  refine ⟨by simp [copyTo, reg_withReg], ⟨by simp [copyTo], by simp [copyTo, Bool.beq_eq_decide_eq]⟩, ?_, ?_, ?_, by simp [copyTo]⟩
  · intro r' hr'
    simp_all [copyTo, reg_withReg]
  · intro f hf
    simp_all [copyTo]
  · intro addr _
    simp [copyTo]

/-- Everything a store does (R200). -/
theorem storeFrom_stores (r : Reg) (m : MemOperand) (s : State) :
    StoresByte (effectiveAddr s m) (s.reg r) s (storeFrom r m s) := by
  refine ⟨by simp [storeFrom], fun addr h => ?_, fun r' _ => by simp [storeFrom], fun f _ => by simp [storeFrom],
    by simp [storeFrom]⟩
  exact read_write_ne s _ (by simpa using h)

/-- Everything an add or subtract does with its result. -/
theorem withArith_sets (s : State) (r : ArithResult) : SetsArith r s (withArith s r) := by
  refine ⟨rfl, by simp [withArith, setNVZC], by simp [withArith, setNVZC], by simp [withArith, setNVZC],
    by simp [withArith, setNVZC], ?_, ?_, ?_, by simp [withArith]⟩
  · intro r' hr'
    simp_all [withArith, reg_withReg]
  · intro f hf
    cases f <;> simp_all [withArith, setNVZC, flag_eq]
  · intro addr _
    simp [withArith]

/-- Everything writing one flag does (R612). -/
theorem withFlag_sets (s : State) {f : Flag} (h : f ≠ .U) (b : Bool) : SetsFlag f b s (s.withFlag f b) := by
  refine ⟨by simp [flag_withFlag s f f b h], fun g hg => ?_, fun r _ => by simp, fun addr _ => by simp, rfl⟩
  have hg' : g ≠ f := by simpa using hg
  simp [flag_withFlag s f g b h, hg']

/-- Everything a shift or rotate does (R400). -/
theorem shiftAt_shifts (f : Byte → Bool → ShiftResult) (l : Location) (s : State) :
    ShiftsTo l (f (readLoc s (resolveLoc s l)) (s.flag .C)).value (f (readLoc s (resolveLoc s l)) (s.flag .C)).carry s
      (shiftAt f l s) := by
  refine ⟨?_, by simp [shiftAt, shiftStatus], ⟨by simp [shiftAt, shiftStatus], by simp [shiftAt, shiftStatus, Bool.beq_eq_decide_eq]⟩,
    fun g hg => ?_, by cases l <;> simp [shiftAt, resolveLoc, writeLoc]⟩
  · cases l with
    | accumulator =>
      refine ⟨rfl, fun r hr => ?_, fun _ _ => rfl⟩
      simp_all [shiftAt, resolveLoc, writeLoc, reg_withReg]
    | mem m =>
      refine ⟨by simp [shiftAt, resolveLoc, writeLoc], fun addr h => ?_, fun r _ => by simp [shiftAt, resolveLoc, writeLoc]⟩
      have h' : addr ≠ effectiveAddr s m := by simpa using h
      simp [shiftAt, resolveLoc, writeLoc, read_write, h']
  · cases g <;> simp_all [shiftAt, shiftStatus, flag_eq]

/-- Everything INC and DEC do with the new byte (R405, R406). -/
theorem stepCell_steps (f : Byte → Byte) (m : MemOperand) (s : State) :
    (stepCell f m s).read (effectiveAddr s m) = f (s.read (effectiveAddr s m)) ∧
    NZOf (f (s.read (effectiveAddr s m))) (stepCell f m s) ∧ KeepsMemoryBut [effectiveAddr s m] s (stepCell f m s) ∧
    KeepsRegsBut [] s (stepCell f m s) ∧ KeepsFlagsBut [.N, .Z] s (stepCell f m s) ∧ (stepCell f m s).pc = s.pc := by
  refine ⟨by simp [stepCell], ⟨by simp [stepCell], by simp [stepCell, Bool.beq_eq_decide_eq]⟩, fun addr h => ?_,
    fun r _ => by simp [stepCell], fun g hg => by simp_all [stepCell], by simp [stepCell]⟩
  have h' : addr ≠ effectiveAddr s m := by simpa using h
  simp [stepCell, read_write, h']

/-- Everything a compare does (R500). -/
theorem compareWith_compares (r : Reg) (o : ReadOperand) (s : State) :
    Compares (s.reg r) (operandValue s o) s (compareWith r o s) := by
  have h : ∀ a m : Byte, a - m = BitVec.ofNat 8 (a.toNat + 256 - m.toNat) := by
    intro a m
    bv_omega
  exact ⟨by simp [compareWith, compareStatus], by simp [compareWith, compareStatus, Bool.beq_eq_decide_eq],
    by simp [compareWith, compareStatus, ← h], fun _ _ => by simp [compareWith],
    fun g hg => by cases g <;> simp_all [compareWith, compareStatus, flag_eq], fun _ _ => by simp [compareWith],
    by simp [compareWith]⟩

/-- A branch changes PC or nothing (R510). -/
theorem branchIf_eq (cond : Bool) (offset : Byte) (s : State) :
    branchIf cond offset s = { s with pc := if cond then branchTarget s.pc offset else s.pc } := by
  cases cond <;> rfl

/-- The target of a branch is PC plus the signed offset (R147). -/
theorem branchTarget_eq (pc : Word) (offset : Byte) : branchTarget pc offset = BitVec.ofInt 16 (pc.toNat + offset.toInt) := by
  apply BitVec.eq_of_toInt_eq
  rw [BitVec.toInt_ofInt, branchTarget, sext, BitVec.toInt_add, BitVec.toInt_signExtend_of_le (by omega),
    BitVec.toInt_eq_toNat_bmod pc]
  simp

/-- On this core TXS is a copy of X to SP (R211). -/
theorem transferToSP_eq (s : State) : transferToSP Config.txsSetsNZ s = copyTo .SP s.x s := rfl

/-- P as read after PLP or RTI pulled `v` (R50). -/
theorem visible_restored (p v : Byte) :
    visibleStatus (restoredStatus p v) = (v &&& 0xCF#8) ||| (visibleStatus p &&& 0x10#8) ||| 0x20#8 := by
  have h : ∀ p : Byte, (visibleStatus p &&& 0x10#8) = p &&& 0x10#8 := by decide
  rw [h, restoredStatus, visibleStatus, BitVec.or_assoc]
  simp

/-- The byte PHP and BRK push, from P as read (R49). -/
theorem pushed_eq (p : Byte) : pushedStatus p = visibleStatus p ||| 0x30#8 := by
  revert p
  decide

/-- A status byte is its eight flags. -/
theorem status_ext {p q : Byte} (h : ∀ f, getFlag p f = getFlag q f) : p = q := by
  apply BitVec.eq_of_getLsbD_eq
  intro i hi
  have hi' : i < 8 := hi
  have h0 := h .C
  have h1 := h .Z
  have h2 := h .I
  have h3 := h .D
  have h4 := h .B
  have h5 := h .U
  have h6 := h .V
  have h7 := h .N
  simp only [getFlag, flagBit] at h0 h1 h2 h3 h4 h5 h6 h7
  interval_cases i <;> assumption

/-! ### The meanings keep the invariant -/

theorem inv_copyTo {s : State} (h : s.Inv) (r : Reg) (v : Byte) : (copyTo r v s).Inv := inv_withNZ (inv_withReg h r v) v

theorem inv_storeFrom {s : State} (h : s.Inv) (r : Reg) (m : MemOperand) : (storeFrom r m s).Inv := inv_write h _ _

theorem inv_withArith {s : State} (h : s.Inv) (r : ArithResult) : (withArith s r).Inv :=
  inv_withStatus (inv_withReg h .A r.value) (by simp [setNVZC, h.unusedIsOne]) (by simp [setNVZC, h.breakIsZero])

theorem inv_compareWith {s : State} (h : s.Inv) (r : Reg) (o : ReadOperand) : (compareWith r o s).Inv :=
  inv_withStatus h (by simp [compareStatus, h.unusedIsOne]) (by simp [compareStatus, h.breakIsZero])

theorem inv_bitStatus {s : State} (h : s.Inv) (a m : Byte) : (s.withStatus (bitStatus s.p a m)).Inv :=
  inv_withStatus h (by simp [bitStatus, h.unusedIsOne]) (by simp [bitStatus, h.breakIsZero])

theorem inv_shiftAt {s : State} (h : s.Inv) (f : Byte → Bool → ShiftResult) (l : Location) : (shiftAt f l s).Inv := by
  refine inv_withStatus ?_ (by simp [shiftStatus, h.unusedIsOne]) (by simp [shiftStatus, h.breakIsZero])
  cases l with
  | accumulator => exact inv_withReg h .A _
  | mem m => exact inv_write h _ _

theorem inv_stepCell {s : State} (h : s.Inv) (f : Byte → Byte) (m : MemOperand) : (stepCell f m s).Inv :=
  inv_withNZ (inv_write h _ _) _

theorem inv_branchIf {s : State} (h : s.Inv) (cond : Bool) (offset : Byte) : (branchIf cond offset s).Inv := by
  cases cond with
  | false => exact h
  | true => exact inv_jump h _

theorem inv_takeBreak {s : State} (h : s.Inv) (ret : Word) : (s.takeBreak ret).Inv :=
  inv_jump (inv_withFlag (inv_push (inv_push (inv_push h _) _) _) (by decide) (by decide) true) _

theorem inv_returnFromBreak {s : State} (h : s.Inv) : s.returnFromBreak.Inv :=
  inv_jump (inv_pop (inv_pop (inv_popStatus h))) _

end Sys2Proof.Machine
end

