-- ==== Sys2Proof/Laws/Decode.lean ====
section
/-! SUPPORT. The laws of decoding: every pair of the opcode map has an instruction, and operand bytes resolve to their operand. -/

namespace Sys2Proof

open Sys2Proof.Machine

/-- Whether a mnemonic and a mode make an instruction depends on neither the opcode byte nor the raw value. -/
theorem isSome_instrOfParts (mn : Mnemonic) (mode : AddrMode) (op : Byte) (raw : Word) :
    (instrOfParts mn mode op raw).isSome = (instrOfParts mn mode 0x00#8 0x0000#16).isSome := by
  cases mn <;> cases mode <;> rfl

/-- Every pair the opcode map yields has an instruction (R105), so `instrOf` never takes its default. -/
theorem instrOfParts_opcodeMap (op : Byte) (raw : Word) :
    instrOfParts (opcodeMap op).1 (opcodeMap op).2 op raw = some (instrOf op raw) := by
  have h : ∀ op : Byte, (instrOfParts (opcodeMap op).1 (opcodeMap op).2 0x00#8 0x0000#16).isSome = true := by decide
  obtain ⟨i, hi⟩ := Option.isSome_iff_exists.mp ((isSome_instrOfParts _ _ op raw).trans (h op))
  simp [instrOf, hi]

/-- `HasRows` as one Boolean computation over the 256 opcodes, for `decide`. -/
def hasRowsCheck (mn : Mnemonic) (rows : List (Byte × AddrMode)) : Bool :=
  (rows.all fun r => opcodeMap r.1 == (mn, r.2)) &&
  (List.range 256).all fun n =>
    (opcodeMap (BitVec.ofNat 8 n)).1 != mn || (rows.map (·.1)).contains (BitVec.ofNat 8 n)

theorem hasRows_of_check {mn : Mnemonic} {rows : List (Byte × AddrMode)} (h : hasRowsCheck mn rows = true) :
    HasRows mn rows := by
  simp only [hasRowsCheck, Bool.and_eq_true, List.all_eq_true, beq_iff_eq] at h
  refine ⟨h.1, fun op ho => ?_⟩
  have hop := h.2 op.toNat (by simpa using op.isLt)
  simpa [ho] using hop

/-! ### Operand bytes -/

/-- The operand bytes `bytes` of mode `mode` resolve to `raw`, whatever bytes follow. -/
def ResolveTo (mode : AddrMode) (bytes : List Byte) (raw : Word) : Prop :=
  ∀ rest, resolveBytes mode.width (bytes ++ rest) = some (raw, rest)

theorem resolve_word (w : Word) (rest : List Byte) :
    resolveBytes 2 ([lowByte w, highByte w] ++ rest) = some (w, rest) := by
  simp [resolveBytes, join_bytes]

theorem resolve_byte (b : Byte) (rest : List Byte) : resolveBytes 1 ([b] ++ rest) = some (zext b, rest) := rfl

theorem memOperand_resolves (m : MemOperand) :
    ∃ raw, ResolveTo m.mode m.bytes raw ∧ m.mode.memOperand raw = some m := by
  cases m with
  | zeroPage b => exact ⟨_, resolve_byte b, by simp [MemOperand.mode, AddrMode.memOperand]⟩
  | zeroPageX b => exact ⟨_, resolve_byte b, by simp [MemOperand.mode, AddrMode.memOperand]⟩
  | zeroPageY b => exact ⟨_, resolve_byte b, by simp [MemOperand.mode, AddrMode.memOperand]⟩
  | absolute w => exact ⟨_, resolve_word w, rfl⟩
  | absoluteX w => exact ⟨_, resolve_word w, rfl⟩
  | absoluteY w => exact ⟨_, resolve_word w, rfl⟩
  | indirectX b => exact ⟨_, resolve_byte b, by simp [MemOperand.mode, AddrMode.memOperand]⟩
  | indirectY b => exact ⟨_, resolve_byte b, by simp [MemOperand.mode, AddrMode.memOperand]⟩

theorem mode_ne_immediate (m : MemOperand) : m.mode ≠ .immediate := by cases m <;> simp [MemOperand.mode]

theorem mode_ne_accumulator (m : MemOperand) : m.mode ≠ .accumulator := by cases m <;> simp [MemOperand.mode]

theorem readOperand_resolves (o : ReadOperand) :
    ∃ raw, ResolveTo o.mode o.bytes raw ∧ o.mode.readOperand raw = some o := by
  cases o with
  | immediate b => exact ⟨_, resolve_byte b, by simp [ReadOperand.mode, AddrMode.readOperand]⟩
  | mem m =>
    obtain ⟨raw, hr, hm⟩ := memOperand_resolves m
    exact ⟨raw, hr, by simp [ReadOperand.mode, AddrMode.readOperand, mode_ne_immediate, hm]⟩

theorem location_resolves (l : Location) : ∃ raw, ResolveTo l.mode l.bytes raw ∧ l.mode.location raw = some l := by
  cases l with
  | accumulator => exact ⟨0, fun _ => rfl, rfl⟩
  | mem m =>
    obtain ⟨raw, hr, hm⟩ := memOperand_resolves m
    exact ⟨raw, hr, by simp [Location.mode, AddrMode.location, mode_ne_accumulator, hm]⟩

theorem jumpTarget_resolves (t : JumpTarget) : ∃ raw, ResolveTo t.mode t.bytes raw ∧ t.mode.jumpTarget raw = some t := by
  cases t with
  | absolute w => exact ⟨w, resolve_word w, rfl⟩
  | indirect w => exact ⟨w, resolve_word w, rfl⟩

end Sys2Proof
end

