-- ==== Sys2Proof/Laws/PerInstr.lean ====
section
/-! SUPPORT. Statements made per instruction. Family OperandBytesResolve: an instruction's operand bytes (R100) resolve, by the width
of its mode, to a raw value from which its mnemonic and mode give the instruction back (R102, R103, R134). -/

namespace Sys2Proof.Laws.OperandBytesResolve

/-- For an `Invalid`, `op` is its own opcode byte; any other instruction does not carry one. -/
def Statement (i : Instr) : Prop :=
  ∃ raw, ResolveTo i.mode i.operandBytes raw ∧
    ∀ op, (∀ own, i = .invalid own → op = own) → instrOfParts i.mnemonic i.mode op raw = some i

theorem ofRead {mk : ReadOperand → Instr} {mn : Mnemonic} (o : ReadOperand) (hm : (mk o).mode = o.mode)
    (hb : (mk o).operandBytes = o.bytes) (hn : (mk o).mnemonic = mn)
    (hp : ∀ mode op raw, instrOfParts mn mode op raw = (mode.readOperand raw).map mk) : Statement (mk o) := by
  obtain ⟨raw, hr, ho⟩ := readOperand_resolves o
  exact ⟨raw, by rw [hm, hb]; exact hr, fun op _ => by rw [hn, hp, hm, ho]; rfl⟩

theorem ofMem {mk : MemOperand → Instr} {mn : Mnemonic} (m : MemOperand) (hm : (mk m).mode = m.mode)
    (hb : (mk m).operandBytes = m.bytes) (hn : (mk m).mnemonic = mn)
    (hp : ∀ mode op raw, instrOfParts mn mode op raw = (mode.memOperand raw).map mk) : Statement (mk m) := by
  obtain ⟨raw, hr, ho⟩ := memOperand_resolves m
  exact ⟨raw, by rw [hm, hb]; exact hr, fun op _ => by rw [hn, hp, hm, ho]; rfl⟩

theorem ofLocation {mk : Location → Instr} {mn : Mnemonic} (l : Location) (hm : (mk l).mode = l.mode)
    (hb : (mk l).operandBytes = l.bytes) (hn : (mk l).mnemonic = mn)
    (hp : ∀ mode op raw, instrOfParts mn mode op raw = (mode.location raw).map mk) : Statement (mk l) := by
  obtain ⟨raw, hr, ho⟩ := location_resolves l
  exact ⟨raw, by rw [hm, hb]; exact hr, fun op _ => by rw [hn, hp, hm, ho]; rfl⟩

theorem ofOffset {mk : Byte → Instr} {mn : Mnemonic} (d : Byte) (hm : (mk d).mode = .relative)
    (hb : (mk d).operandBytes = [d]) (hn : (mk d).mnemonic = mn)
    (hp : ∀ mode op raw, instrOfParts mn mode op raw = (mode.offset raw).map mk) : Statement (mk d) :=
  ⟨zext d, by rw [hm, hb]; exact resolve_byte d, fun op _ => by rw [hn, hp, hm]; simp [AddrMode.offset]⟩

theorem ofImplicit {i : Instr} {mn : Mnemonic} (hm : i.mode = .implicit) (hb : i.operandBytes = []) (hn : i.mnemonic = mn)
    (hp : ∀ mode op raw, instrOfParts mn mode op raw = mode.noOperand i) : Statement i :=
  ⟨0, by rw [hm, hb]; exact fun _ => rfl, fun op _ => by rw [hn, hp, hm]; rfl⟩

theorem lda (o : ReadOperand) : Statement (.lda o) := ofRead (mk := .lda) o rfl rfl rfl fun _ _ _ => rfl

theorem ldx (o : ReadOperand) : Statement (.ldx o) := ofRead (mk := .ldx) o rfl rfl rfl fun _ _ _ => rfl

theorem ldy (o : ReadOperand) : Statement (.ldy o) := ofRead (mk := .ldy) o rfl rfl rfl fun _ _ _ => rfl

theorem sta (m : MemOperand) : Statement (.sta m) := ofMem (mk := .sta) m rfl rfl rfl fun _ _ _ => rfl

theorem stx (m : MemOperand) : Statement (.stx m) := ofMem (mk := .stx) m rfl rfl rfl fun _ _ _ => rfl

theorem sty (m : MemOperand) : Statement (.sty m) := ofMem (mk := .sty) m rfl rfl rfl fun _ _ _ => rfl

theorem tax : Statement .tax := ofImplicit rfl rfl rfl fun _ _ _ => rfl

theorem tay : Statement .tay := ofImplicit rfl rfl rfl fun _ _ _ => rfl

theorem tsx : Statement .tsx := ofImplicit rfl rfl rfl fun _ _ _ => rfl

theorem txa : Statement .txa := ofImplicit rfl rfl rfl fun _ _ _ => rfl

theorem txs : Statement .txs := ofImplicit rfl rfl rfl fun _ _ _ => rfl

theorem tya : Statement .tya := ofImplicit rfl rfl rfl fun _ _ _ => rfl

theorem adc (o : ReadOperand) : Statement (.adc o) := ofRead (mk := .adc) o rfl rfl rfl fun _ _ _ => rfl

theorem sbc (o : ReadOperand) : Statement (.sbc o) := ofRead (mk := .sbc) o rfl rfl rfl fun _ _ _ => rfl

theorem and (o : ReadOperand) : Statement (.and o) := ofRead (mk := .and) o rfl rfl rfl fun _ _ _ => rfl

theorem ora (o : ReadOperand) : Statement (.ora o) := ofRead (mk := .ora) o rfl rfl rfl fun _ _ _ => rfl

theorem eor (o : ReadOperand) : Statement (.eor o) := ofRead (mk := .eor) o rfl rfl rfl fun _ _ _ => rfl

theorem bit (m : MemOperand) : Statement (.bit m) := ofMem (mk := .bit) m rfl rfl rfl fun _ _ _ => rfl

theorem asl (l : Location) : Statement (.asl l) := ofLocation (mk := .asl) l rfl rfl rfl fun _ _ _ => rfl

theorem lsr (l : Location) : Statement (.lsr l) := ofLocation (mk := .lsr) l rfl rfl rfl fun _ _ _ => rfl

theorem rol (l : Location) : Statement (.rol l) := ofLocation (mk := .rol) l rfl rfl rfl fun _ _ _ => rfl

theorem ror (l : Location) : Statement (.ror l) := ofLocation (mk := .ror) l rfl rfl rfl fun _ _ _ => rfl

theorem inc (m : MemOperand) : Statement (.inc m) := ofMem (mk := .inc) m rfl rfl rfl fun _ _ _ => rfl

theorem dec (m : MemOperand) : Statement (.dec m) := ofMem (mk := .dec) m rfl rfl rfl fun _ _ _ => rfl

theorem inx : Statement .inx := ofImplicit rfl rfl rfl fun _ _ _ => rfl

theorem iny : Statement .iny := ofImplicit rfl rfl rfl fun _ _ _ => rfl

theorem dex : Statement .dex := ofImplicit rfl rfl rfl fun _ _ _ => rfl

theorem dey : Statement .dey := ofImplicit rfl rfl rfl fun _ _ _ => rfl

theorem cmp (o : ReadOperand) : Statement (.cmp o) := ofRead (mk := .cmp) o rfl rfl rfl fun _ _ _ => rfl

theorem cpx (o : ReadOperand) : Statement (.cpx o) := ofRead (mk := .cpx) o rfl rfl rfl fun _ _ _ => rfl

theorem cpy (o : ReadOperand) : Statement (.cpy o) := ofRead (mk := .cpy) o rfl rfl rfl fun _ _ _ => rfl

theorem bcc (offset : Byte) : Statement (.bcc offset) := ofOffset (mk := .bcc) offset rfl rfl rfl fun _ _ _ => rfl

theorem bcs (offset : Byte) : Statement (.bcs offset) := ofOffset (mk := .bcs) offset rfl rfl rfl fun _ _ _ => rfl

theorem beq (offset : Byte) : Statement (.beq offset) := ofOffset (mk := .beq) offset rfl rfl rfl fun _ _ _ => rfl

theorem bne (offset : Byte) : Statement (.bne offset) := ofOffset (mk := .bne) offset rfl rfl rfl fun _ _ _ => rfl

theorem bpl (offset : Byte) : Statement (.bpl offset) := ofOffset (mk := .bpl) offset rfl rfl rfl fun _ _ _ => rfl

theorem bmi (offset : Byte) : Statement (.bmi offset) := ofOffset (mk := .bmi) offset rfl rfl rfl fun _ _ _ => rfl

theorem bvc (offset : Byte) : Statement (.bvc offset) := ofOffset (mk := .bvc) offset rfl rfl rfl fun _ _ _ => rfl

theorem bvs (offset : Byte) : Statement (.bvs offset) := ofOffset (mk := .bvs) offset rfl rfl rfl fun _ _ _ => rfl

theorem jmp (t : JumpTarget) : Statement (.jmp t) := by
  obtain ⟨raw, hr, ht⟩ := jumpTarget_resolves t
  exact ⟨raw, hr, fun op _ => by simp [instrOfParts, Instr.mode, Instr.mnemonic, ht]⟩

theorem jsr (target : Word) : Statement (.jsr target) := ⟨target, resolve_word target, fun _ _ => rfl⟩

theorem rts : Statement .rts := ofImplicit rfl rfl rfl fun _ _ _ => rfl

theorem pha : Statement .pha := ofImplicit rfl rfl rfl fun _ _ _ => rfl

theorem php : Statement .php := ofImplicit rfl rfl rfl fun _ _ _ => rfl

theorem pla : Statement .pla := ofImplicit rfl rfl rfl fun _ _ _ => rfl

theorem plp : Statement .plp := ofImplicit rfl rfl rfl fun _ _ _ => rfl

theorem clc : Statement .clc := ofImplicit rfl rfl rfl fun _ _ _ => rfl

theorem cld : Statement .cld := ofImplicit rfl rfl rfl fun _ _ _ => rfl

theorem cli : Statement .cli := ofImplicit rfl rfl rfl fun _ _ _ => rfl

theorem clv : Statement .clv := ofImplicit rfl rfl rfl fun _ _ _ => rfl

theorem sec : Statement .sec := ofImplicit rfl rfl rfl fun _ _ _ => rfl

theorem sed : Statement .sed := ofImplicit rfl rfl rfl fun _ _ _ => rfl

theorem sei : Statement .sei := ofImplicit rfl rfl rfl fun _ _ _ => rfl

theorem brk : Statement .brk := ofImplicit rfl rfl rfl fun _ _ _ => rfl

theorem rti : Statement .rti := ofImplicit rfl rfl rfl fun _ _ _ => rfl

theorem nop : Statement .nop := ofImplicit rfl rfl rfl fun _ _ _ => rfl

theorem invalid (opcode : Byte) : Statement (.invalid opcode) :=
  ⟨0, fun _ => rfl, fun op h => by rw [h opcode rfl]; rfl⟩

end Sys2Proof.Laws.OperandBytesResolve
end

