-- ==== Sys2Proof/Laws/Step.lean ====
section
/-! SUPPORT. The laws of fetch and of the step: the instruction that is fetched, its length, and the state its meaning starts from. -/

namespace Sys2Proof.Machine

theorem width_le_two (mode : AddrMode) : mode.width ≤ 2 := by cases mode <;> decide

/-- A width is 0, 1 or 2 (R102). -/
theorem width_cases (mode : AddrMode) : mode.width = 0 ∨ mode.width = 1 ∨ mode.width = 2 := by
  have := width_le_two mode
  omega

/-- An instruction made of a mnemonic and a mode has them. -/
theorem instrOfParts_spec {mn : Mnemonic} {mode : AddrMode} {op : Byte} {raw : Word} {i : Instr}
    (h : instrOfParts mn mode op raw = some i) : i.mnemonic = mn ∧ i.mode = mode := by
  cases mn <;> cases mode <;> cases h <;> exact ⟨rfl, rfl⟩

/-- The instruction of an opcode byte has the mnemonic and the mode of the opcode map (R133). -/
theorem instrOf_spec (op : Byte) (raw : Word) :
    (instrOf op raw).mnemonic = (opcodeMap op).1 ∧ (instrOf op raw).mode = (opcodeMap op).2 :=
  instrOfParts_spec (instrOfParts_opcodeMap op raw)

theorem fetch_opcode (s : State) : s.fetch.opcode = s.read s.pc := rfl

theorem fetch_instr (s : State) : s.fetch.instr = instrOf (s.read s.pc) s.fetch.raw := rfl

/-- The length of the fetched instruction (R113). -/
theorem fetch_length (s : State) : s.fetch.instr.length = 1 + (opcodeMap (s.read s.pc)).2.width := by
  rw [Instr.length, fetch_instr, (instrOf_spec _ _).2]

/-- What fetch and resolve give, by the width of the opcode's mode (R134). -/
theorem fetch_cases (s : State) :
    ((opcodeMap (s.read s.pc)).2.width = 0 ∧ s.fetch.raw = 0x0000#16 ∧ s.fetch.after = { s with pc := s.pc + 1#16 }) ∨
    ((opcodeMap (s.read s.pc)).2.width = 1 ∧ s.fetch.raw = zext (s.read (s.pc + 1#16)) ∧
      s.fetch.after = { s with pc := s.pc + 2#16 }) ∨
    ((opcodeMap (s.read s.pc)).2.width = 2 ∧ s.fetch.raw = joinBytes (s.read (s.pc + 2#16)) (s.read (s.pc + 1#16)) ∧
      s.fetch.after = { s with pc := s.pc + 3#16 }) := by
  have h12 : s.pc + 1#16 + 1#16 = s.pc + 2#16 := by bv_omega
  have h23 : s.pc + 2#16 + 1#16 = s.pc + 3#16 := by bv_omega
  have e : s.fetch = ⟨s.read s.pc, ((s.jump (s.pc + 1#16)).resolve (opcodeMap (s.read s.pc)).2.width).1,
    ((s.jump (s.pc + 1#16)).resolve (opcodeMap (s.read s.pc)).2.width).2⟩ := rfl
  rw [e]
  rcases width_cases (opcodeMap (s.read s.pc)).2 with h | h | h <;> rw [h]
  · exact .inl ⟨rfl, rfl, rfl⟩
  · exact .inr (.inl ⟨rfl, rfl, by simp [State.resolve, State.fetchByte, State.jump, h12]⟩)
  · exact .inr (.inr ⟨rfl, by simp [State.resolve, State.fetchByte, State.jump, State.read, h12],
      by simp [State.resolve, State.fetchByte, State.jump, h12, h23]⟩)

/-- A meaning starts from the state whose PC is past the instruction, and nothing else of which is changed (R135). -/
theorem fetch_after (s : State) : s.fetch.after = { s with pc := s.pc + BitVec.ofNat 16 s.fetch.instr.length } := by
  rw [fetch_length]
  rcases fetch_cases s with ⟨h, _, e⟩ | ⟨h, _, e⟩ | ⟨h, _, e⟩ <;> rw [h, e]

end Sys2Proof.Machine
end

