-- ==== Sys2Proof/Tests/Slice0.lean ====
section
/-! SUPPORT. Tests of the model. Expected values are those of spec/95_test_vectors.md (the vector is named in each docstring), or are
worked by hand from the rule that is named. Witnesses at the end meet the hypotheses of the statements. -/

namespace Sys2Proof.Tests

open Sys2Proof.Machine

/-! ### The smoke test of WellFormed -/

/-- One term of each kind that no opcode encodes: a mode that the mnemonic's rule does not list, for every operand type, and an
`Invalid` that carries a defined opcode byte. -/
theorem test_wf_refuses :
    (Instr.lda (.mem (.zeroPageY 0x10))).wf = false ∧ (Instr.ldx (.mem (.zeroPageX 0x10))).wf = false ∧
    (Instr.cpx (.mem (.absoluteX 0x1000))).wf = false ∧ (Instr.sty (.indirectY 0x10)).wf = false ∧
    (Instr.bit (.zeroPageX 0x10)).wf = false ∧ (Instr.inc (.absoluteY 0x1000)).wf = false ∧
    (Instr.asl (.mem (.indirectX 0x10))).wf = false ∧ (Instr.invalid 0xA9).wf = false := by decide

theorem test_wf_accepts :
    (Instr.lda (.immediate 0x10)).wf = true ∧ (Instr.ldx (.mem (.zeroPageY 0x10))).wf = true ∧
    (Instr.asl .accumulator).wf = true ∧ (Instr.jmp (.indirect 0x30FF)).wf = true ∧ (Instr.bne 0x80).wf = true ∧
    (Instr.rti).wf = true ∧ (Instr.invalid 0x02).wf = true ∧ (Instr.invalid 0xFF).wf = true := by decide

theorem test_encode_refuses : encode (.lda (.mem (.zeroPageY 0x10))) = none ∧ encode (.invalid 0xA9) = none := by decide

/-! ### Decoding: words written out from R100, R110 and R111, every constructor at least once -/

/-- The bytes decode to the instruction, and nothing is left. -/
def Reads (bytes : List Byte) (i : Instr) : Bool := decide (decode bytes = .decoded i [])

theorem test_decode_loads :
    Reads [0xA9, 0x12] (.lda (.immediate 0x12)) ∧
    Reads [0xB1, 0x40] (.lda (.mem (.indirectY 0x40))) ∧
    Reads [0xBD, 0xF0, 0xFF] (.lda (.mem (.absoluteX 0xFFF0))) ∧
    Reads [0xA2, 0x05] (.ldx (.immediate 0x05)) ∧
    Reads [0xB6, 0xFF] (.ldx (.mem (.zeroPageY 0xFF))) ∧
    Reads [0xA4, 0x10] (.ldy (.mem (.zeroPage 0x10))) ∧
    Reads [0xAC, 0x34, 0x12] (.ldy (.mem (.absolute 0x1234))) := by decide

theorem test_decode_stores :
    Reads [0x81, 0x20] (.sta (.indirectX 0x20)) ∧
    Reads [0x99, 0xFF, 0x00] (.sta (.absoluteY 0x00FF)) ∧
    Reads [0x96, 0xFF] (.stx (.zeroPageY 0xFF)) ∧
    Reads [0x94, 0x10] (.sty (.zeroPageX 0x10)) ∧
    Reads [0x8C, 0x00, 0x20] (.sty (.absolute 0x2000)) := by decide

theorem test_decode_transfers :
    Reads [0xAA] (.tax) ∧
    Reads [0xA8] (.tay) ∧
    Reads [0xBA] (.tsx) ∧
    Reads [0x8A] (.txa) ∧
    Reads [0x9A] (.txs) ∧
    Reads [0x98] (.tya) := by decide

theorem test_decode_arithmetic :
    Reads [0x69, 0x05] (.adc (.immediate 0x05)) ∧
    Reads [0xFD, 0x00, 0x20] (.sbc (.mem (.absoluteX 0x2000))) ∧
    Reads [0x35, 0x10] (.and (.mem (.zeroPageX 0x10))) ∧
    Reads [0x01, 0x10] (.ora (.mem (.indirectX 0x10))) ∧
    Reads [0x4D, 0x34, 0x12] (.eor (.mem (.absolute 0x1234))) ∧
    Reads [0x24, 0x10] (.bit (.zeroPage 0x10)) ∧
    Reads [0x2C, 0x00, 0x20] (.bit (.absolute 0x2000)) := by decide

theorem test_decode_shifts :
    Reads [0x0A] (.asl .accumulator) ∧
    Reads [0x06, 0x10] (.asl (.mem (.zeroPage 0x10))) ∧
    Reads [0x56, 0x10] (.lsr (.mem (.zeroPageX 0x10))) ∧
    Reads [0x2E, 0x00, 0x20] (.rol (.mem (.absolute 0x2000))) ∧
    Reads [0x7E, 0x00, 0x20] (.ror (.mem (.absoluteX 0x2000))) ∧
    Reads [0xE6, 0x10] (.inc (.zeroPage 0x10)) ∧
    Reads [0xCE, 0x00, 0x20] (.dec (.absolute 0x2000)) ∧
    Reads [0xE8] (.inx) ∧
    Reads [0xC8] (.iny) ∧
    Reads [0xCA] (.dex) ∧
    Reads [0x88] (.dey) := by decide

theorem test_decode_compares :
    Reads [0xC9, 0x40] (.cmp (.immediate 0x40)) ∧
    Reads [0xD1, 0x40] (.cmp (.mem (.indirectY 0x40))) ∧
    Reads [0xE0, 0x10] (.cpx (.immediate 0x10)) ∧
    Reads [0xC4, 0x10] (.cpy (.mem (.zeroPage 0x10))) := by decide

theorem test_decode_branches :
    Reads [0x90, 0x80] (.bcc 0x80) ∧
    Reads [0xB0, 0xFE] (.bcs 0xFE) ∧
    Reads [0xF0, 0x05] (.beq 0x05) ∧
    Reads [0xD0, 0xFC] (.bne 0xFC) ∧
    Reads [0x10, 0x7F] (.bpl 0x7F) ∧
    Reads [0x30, 0x10] (.bmi 0x10) ∧
    Reads [0x50, 0x10] (.bvc 0x10) ∧
    Reads [0x70, 0x10] (.bvs 0x10) := by decide

theorem test_decode_jumps :
    Reads [0x4C, 0x34, 0x12] (.jmp (.absolute 0x1234)) ∧
    Reads [0x6C, 0xFF, 0x30] (.jmp (.indirect 0x30FF)) ∧
    Reads [0x20, 0x00, 0x20] (.jsr 0x2000) ∧
    Reads [0x60] (.rts) := by decide

theorem test_decode_stack_and_flags :
    Reads [0x48] (.pha) ∧
    Reads [0x08] (.php) ∧
    Reads [0x68] (.pla) ∧
    Reads [0x28] (.plp) ∧
    Reads [0x18] (.clc) ∧
    Reads [0xD8] (.cld) ∧
    Reads [0x58] (.cli) ∧
    Reads [0xB8] (.clv) ∧
    Reads [0x38] (.sec) ∧
    Reads [0xF8] (.sed) ∧
    Reads [0x78] (.sei) := by decide

theorem test_decode_system :
    Reads [0x00] (.brk) ∧
    Reads [0x40] (.rti) ∧
    Reads [0xEA] (.nop) ∧
    Reads [0x02] (.invalid 0x02) ∧
    Reads [0xFF] (.invalid 0xFF) := by decide

/-- Bytes that end too soon are rejected by name; an undefined opcode consumes no operand byte (R113). -/
theorem test_decode_ends : decode [] = .rejected .noOpcode ∧ decode [0x20, 0x00] = .rejected (.missingOperand 0x20) ∧
    decode [0x02, 0x34] = .decoded (.invalid 0x02) [0x34] := by decide

/-- The host's words: the opcode is the least significant byte, and bits above the row's are zero. -/
theorem test_decodeTableWord :
    decodeTableWord 8 0xA9 = some (.lda (.immediate 0x00)) ∧ decodeTableWord 24 0x30FF6C = some (.jmp (.indirect 0x30FF)) ∧
    decodeTableWord 16 0x1280A9 = some (.lda (.immediate 0x80)) ∧ decodeTableWord 8 0x02 = some (.invalid 0x02) := by decide

/-! ### Single steps -/

/-- The default start state of the vectors: the bytes at 0x1000, PC there, the listed cells, registers as after reset. -/
def start (bytes : List Byte) (cells : List (Word × Byte)) : State :=
  cells.foldl (fun s c => s.write c.1 c.2) (placeAtPC { State.reset with pc := 0x1000 } bytes)

def after (s : State) : Option State :=
  match step s with
  | .next t => some t
  | .fault _ => none
  | .refused _ => none

/-- The step from `s` answers `s` with exactly the named changes. -/
def Goes (s : State) (change : State → State) : Bool := decide (after s = some (change s))

/-- V-AM-1. -/
theorem test_zeroPageX_wraps : Goes { start [0xB5, 0xF0] [(0x0010, 0x7F), (0x0110, 0x55)] with x := 0x20 }
    (fun s => { s with a := 0x7F, pc := 0x1002 }) := by decide

/-- V-AM-2. -/
theorem test_absoluteX_wraps : Goes { start [0xBD, 0xF0, 0xFF] [(0x0010, 0x01)] with x := 0x20 }
    (fun s => { s with a := 0x01, pc := 0x1003 }) := by decide

/-- V-AM-3. -/
theorem test_indirectX_pointer_wraps : Goes { start [0xA1, 0xFE] [(0x00FF, 0x34), (0x0000, 0x12), (0x1234, 0x99)] with x := 0x01 }
    (fun s => { s with a := 0x99, pc := 0x1002, p := 0xA4 }) := by decide

/-- W6. -/
theorem test_indirectX_W6 : Goes { start [0xA1, 0xFE] [(0x0002, 0x00), (0x0003, 0x20), (0x2000, 0x5A)] with x := 0x04 }
    (fun s => { s with a := 0x5A, pc := 0x1002 }) := by decide

/-- V-AM-4. -/
theorem test_indirectY_crosses_page : Goes { start [0xB1, 0x40] [(0x0040, 0xF8), (0x0041, 0x12), (0x1308, 0xC0)] with y := 0x10 }
    (fun s => { s with a := 0xC0, pc := 0x1002, p := 0xA4 }) := by decide

/-- V-AM-5. -/
theorem test_indirectY_pointer_wraps : Goes { start [0xB1, 0xFF] [(0x00FF, 0x00), (0x0000, 0x30), (0x0100, 0x40), (0x3001, 0x66)] with y := 0x01 }
    (fun s => { s with a := 0x66, pc := 0x1002 }) := by decide

/-- V-AM-6. -/
theorem test_indirectY_wraps : Goes { start [0xB1, 0x40] [(0x0040, 0xFF), (0x0041, 0xFF), (0x0001, 0x77)] with y := 0x02 }
    (fun s => { s with a := 0x77, pc := 0x1002 }) := by decide

/-- V-LD-1. -/
theorem test_lda_zero : Goes (start [0xA9, 0x00] [])
    (fun s => { s with a := 0x00, pc := 0x1002, p := 0x26 }) := by decide

/-- V-LD-2. -/
theorem test_lda_negative : Goes (start [0xA9, 0x80] [])
    (fun s => { s with a := 0x80, pc := 0x1002, p := 0xA4 }) := by decide

/-- V-AM-7. -/
theorem test_ldx_zeroPageY_wraps : Goes { start [0xB6, 0xFF] [(0x0001, 0xFE)] with y := 0x02 }
    (fun s => { s with x := 0xFE, pc := 0x1002, p := 0xA4 }) := by decide

/-- V-LD-3. -/
theorem test_ldy_absolute : Goes { start [0xAC, 0x34, 0x12] [] with p := 0xA4 }
    (fun s => { s with y := 0x00, pc := 0x1003, p := 0x26 }) := by decide

/-- V-ST-1, from A = 0x5A so that the store shows. -/
theorem test_sta : Goes { start [0x8D, 0x00, 0x20] [] with a := 0x5A }
    (fun s => { s.write 0x2000 0x5A with pc := 0x1003 }) := by decide

/-- V-ST-4. -/
theorem test_sta_absoluteY : Goes { start [0x99, 0xFF, 0x00] [] with a := 0x11, y := 0x01 }
    (fun s => { s.write 0x0100 0x11 with pc := 0x1003 }) := by decide

/-- V-ST-2. -/
theorem test_stx : Goes { start [0x96, 0xFF] [] with x := 0xAB, y := 0x02 }
    (fun s => { s.write 0x0001 0xAB with pc := 0x1002 }) := by decide

/-- V-ST-3. -/
theorem test_sty : Goes { start [0x94, 0x10] [] with x := 0x01, y := 0x80 }
    (fun s => { s.write 0x0011 0x80 with pc := 0x1002 }) := by decide

/-- V-TR-1. -/
theorem test_tax : Goes { start [0xAA] [] with a := 0x80 }
    (fun s => { s with x := 0x80, pc := 0x1001, p := 0xA4 }) := by decide

/-- V-TR-2. -/
theorem test_tay : Goes { start [0xA8] [] with a := 0x00, y := 0x55 }
    (fun s => { s with y := 0x00, pc := 0x1001, p := 0x26 }) := by decide

/-- V-TR-3. -/
theorem test_tsx : Goes (start [0xBA] [])
    (fun s => { s with x := 0xFD, pc := 0x1001, p := 0xA4 }) := by decide

/-- V-TR-4. -/
theorem test_txa : Goes { start [0x8A] [] with a := 0x12, x := 0x00 }
    (fun s => { s with a := 0x00, pc := 0x1001, p := 0x26 }) := by decide

/-- V-TR-5. -/
theorem test_txs : Goes { start [0x9A] [] with x := 0x00 }
    (fun s => { s with sp := 0x00, pc := 0x1001, p := 0x26 }) := by decide

/-- V-TR-7. -/
theorem test_tya : Goes { start [0x98] [] with y := 0xFF }
    (fun s => { s with a := 0xFF, pc := 0x1001, p := 0xA4 }) := by decide

/-- V-ADC-1. -/
theorem test_adc_overflow : Goes { start [0x69, 0x01] [] with a := 0x7F }
    (fun s => { s with a := 0x80, pc := 0x1002, p := 0xE4 }) := by decide

/-- V-ADC-3. -/
theorem test_adc_carry_in : Goes { start [0x69, 0xFF] [] with a := 0xFF, p := 0x25 }
    (fun s => { s with a := 0xFF, pc := 0x1002, p := 0xA5 }) := by decide

/-- V-SBC-1. -/
theorem test_sbc_overflow : Goes { start [0xE9, 0xB0] [] with a := 0x50, p := 0x25 }
    (fun s => { s with a := 0xA0, pc := 0x1002, p := 0xE4 }) := by decide

/-- V-SBC-3. -/
theorem test_sbc_borrow_in : Goes { start [0xE9, 0x00] [] with a := 0x00, p := 0x24 }
    (fun s => { s with a := 0xFF, pc := 0x1002, p := 0xA4 }) := by decide

/-- V-LOG-1. -/
theorem test_and : Goes { start [0x29, 0x0F] [] with a := 0xF0 }
    (fun s => { s with a := 0x00, pc := 0x1002, p := 0x26 }) := by decide

/-- V-LOG-2. -/
theorem test_ora : Goes { start [0x09, 0x80] [] with a := 0x01 }
    (fun s => { s with a := 0x81, pc := 0x1002, p := 0xA4 }) := by decide

/-- V-LOG-3. -/
theorem test_eor : Goes { start [0x49, 0xFF] [] with a := 0xFF }
    (fun s => { s with a := 0x00, pc := 0x1002, p := 0x26 }) := by decide

/-- V-BIT-1. -/
theorem test_bit_sets : Goes { start [0x24, 0x10] [(0x0010, 0xC0)] with a := 0x01 }
    (fun s => { s with pc := 0x1002, p := 0xE6 }) := by decide

/-- V-BIT-2. -/
theorem test_bit_clears : Goes { start [0x2C, 0x00, 0x20] [(0x2000, 0x3F)] with a := 0xFF, p := 0xE4 }
    (fun s => { s with pc := 0x1003, p := 0x24 }) := by decide

/-- V-SH-1. -/
theorem test_asl_accumulator : Goes { start [0x0A] [] with a := 0x81 }
    (fun s => { s with a := 0x02, pc := 0x1001, p := 0x25 }) := by decide

/-- V-SH-2. -/
theorem test_asl_memory : Goes (start [0x06, 0x10] [(0x0010, 0x80)])
    (fun s => { s.write 0x0010 0x00 with pc := 0x1002, p := 0x27 }) := by decide

/-- V-SH-3. -/
theorem test_lsr : Goes { start [0x4A] [] with a := 0x01, p := 0xA4 }
    (fun s => { s with a := 0x00, pc := 0x1001, p := 0x27 }) := by decide

/-- V-SH-4. -/
theorem test_rol : Goes { start [0x2A] [] with a := 0x80, p := 0x25 }
    (fun s => { s with a := 0x01, pc := 0x1001, p := 0x25 }) := by decide

/-- V-SH-5. -/
theorem test_ror_accumulator : Goes { start [0x6A] [] with a := 0x01, p := 0x25 }
    (fun s => { s with a := 0x80, pc := 0x1001, p := 0xA5 }) := by decide

/-- V-SH-6. -/
theorem test_ror_memory : Goes { start [0x7E, 0x00, 0x20] [(0x2005, 0x02)] with x := 0x05 }
    (fun s => { s.write 0x2005 0x01 with pc := 0x1003, p := 0x24 }) := by decide

/-- V-ID-1. -/
theorem test_inc : Goes { start [0xE6, 0x10] [(0x0010, 0xFF)] with p := 0x25 }
    (fun s => { s.write 0x0010 0x00 with pc := 0x1002, p := 0x27 }) := by decide

/-- V-ID-2. -/
theorem test_dec : Goes (start [0xCE, 0x00, 0x20] [])
    (fun s => { s.write 0x2000 0xFF with pc := 0x1003, p := 0xA4 }) := by decide

/-- V-ID-3. -/
theorem test_dec_zeroPageX_wraps : Goes { start [0xD6, 0xFF] [(0x0001, 0x01)] with x := 0x02 }
    (fun s => { s.write 0x0001 0x00 with pc := 0x1002, p := 0x26 }) := by decide

/-- V-ID-4. -/
theorem test_inx : Goes { start [0xE8] [] with x := 0xFF }
    (fun s => { s with x := 0x00, pc := 0x1001, p := 0x26 }) := by decide

/-- V-ID-5. -/
theorem test_iny : Goes { start [0xC8] [] with y := 0x7F }
    (fun s => { s with y := 0x80, pc := 0x1001, p := 0xA4 }) := by decide

/-- V-ID-6. -/
theorem test_dex : Goes { start [0xCA] [] with x := 0x00 }
    (fun s => { s with x := 0xFF, pc := 0x1001, p := 0xA4 }) := by decide

/-- V-ID-7. -/
theorem test_dey : Goes { start [0x88] [] with y := 0x01 }
    (fun s => { s with y := 0x00, pc := 0x1001, p := 0x26 }) := by decide

/-- V-CMP-3. -/
theorem test_cmp_greater : Goes { start [0xC9, 0x01] [] with a := 0x81 }
    (fun s => { s with pc := 0x1002, p := 0xA5 }) := by decide

/-- V-CMP-4. -/
theorem test_cmp_less : Goes { start [0xC9, 0xFF] [] with a := 0x00 }
    (fun s => { s with pc := 0x1002, p := 0x24 }) := by decide

/-- V-CMP-5. -/
theorem test_cpx : Goes { start [0xE0, 0x10] [] with x := 0x20 }
    (fun s => { s with pc := 0x1002, p := 0x25 }) := by decide

/-- V-CMP-6. -/
theorem test_cpy : Goes { start [0xC4, 0x10] [(0x0010, 0x80)] with y := 0x00 }
    (fun s => { s with pc := 0x1002, p := 0xA4 }) := by decide

/-- V-BR-5. -/
theorem test_bcc_taken_back : Goes { start [0x90, 0x80] [] with p := 0x24 }
    (fun s => { s with pc := 0x0F82 }) := by decide

/-- R511 with C = 1. -/
theorem test_bcc_not_taken : Goes { start [0x90, 0x80] [] with p := 0x25 }
    (fun s => { s with pc := 0x1002 }) := by decide

/-- V-BR-4. -/
theorem test_bcs_to_itself : Goes { start [0xB0, 0xFE] [] with p := 0x25 }
    (fun s => { s with pc := 0x1000 }) := by decide

/-- R512 with C = 0. -/
theorem test_bcs_not_taken : Goes { start [0xB0, 0xFE] [] with p := 0x24 }
    (fun s => { s with pc := 0x1002 }) := by decide

/-- V-BR-1. -/
theorem test_beq_taken : Goes { start [0xF0, 0x05] [] with p := 0x26 }
    (fun s => { s with pc := 0x1007 }) := by decide

/-- V-BR-2. -/
theorem test_beq_not_taken : Goes { start [0xF0, 0x05] [] with p := 0x24 }
    (fun s => { s with pc := 0x1002 }) := by decide

/-- V-BR-3. -/
theorem test_bne_taken : Goes { start [0xD0, 0xFC] [] with p := 0x24 }
    (fun s => { s with pc := 0x0FFE }) := by decide

/-- R514 with Z = 1. -/
theorem test_bne_not_taken : Goes { start [0xD0, 0xFC] [] with p := 0x26 }
    (fun s => { s with pc := 0x1002 }) := by decide

/-- V-BR-6. -/
theorem test_bpl_taken : Goes { start [0x10, 0x7F] [] with p := 0x24 }
    (fun s => { s with pc := 0x1081 }) := by decide

/-- R515 with N = 1. -/
theorem test_bpl_not_taken : Goes { start [0x10, 0x7F] [] with p := 0xA4 }
    (fun s => { s with pc := 0x1002 }) := by decide

/-- V-BR-7. -/
theorem test_bmi_taken : Goes { start [0x30, 0x10] [] with p := 0xA4 }
    (fun s => { s with pc := 0x1012 }) := by decide

/-- R516 with N = 0. -/
theorem test_bmi_not_taken : Goes { start [0x30, 0x10] [] with p := 0x24 }
    (fun s => { s with pc := 0x1002 }) := by decide

/-- V-BR-8. -/
theorem test_bvc_not_taken : Goes { start [0x50, 0x10] [] with p := 0x64 }
    (fun s => { s with pc := 0x1002 }) := by decide

/-- R517 with V = 0. -/
theorem test_bvc_taken : Goes { start [0x50, 0x10] [] with p := 0x24 }
    (fun s => { s with pc := 0x1012 }) := by decide

/-- V-BR-9. -/
theorem test_bvs_taken : Goes { start [0x70, 0x10] [] with p := 0x64 }
    (fun s => { s with pc := 0x1012 }) := by decide

/-- R518 with V = 0. -/
theorem test_bvs_not_taken : Goes { start [0x70, 0x10] [] with p := 0x24 }
    (fun s => { s with pc := 0x1002 }) := by decide

/-- V-JMP-1. -/
theorem test_jmp_absolute : Goes (start [0x4C, 0x34, 0x12] [])
    (fun s => { s with pc := 0x1234 }) := by decide

/-- V-JMP-2, W4. -/
theorem test_jmp_indirect_page_end : Goes (start [0x6C, 0xFF, 0x30] [(0x30FF, 0x80), (0x3000, 0x50), (0x3100, 0x40)])
    (fun s => { s with pc := 0x5080 }) := by decide

/-- V-JSR-1. -/
theorem test_jsr : Goes (start [0x20, 0x00, 0x20] [])
    (fun s => { (s.write 0x01FD 0x10).write 0x01FC 0x02 with sp := 0xFB, pc := 0x2000 }) := by decide

/-- V-RTS-1. -/
theorem test_rts : Goes { start [0x60] [(0x01FC, 0x02), (0x01FD, 0x10)] with sp := 0xFB }
    (fun s => { s with sp := 0xFD, pc := 0x1003 }) := by decide

/-- V-RTS-2. -/
theorem test_rts_wraps : Goes { start [0x60] [(0x01FF, 0x33), (0x0100, 0x44)] with sp := 0xFE }
    (fun s => { s with sp := 0x00, pc := 0x4434 }) := by decide

/-- V-PHA-1, W5. -/
theorem test_pha_wraps : Goes { start [0x48] [] with a := 0x41, sp := 0x00 }
    (fun s => { s.write 0x0100 0x41 with sp := 0xFF, pc := 0x1001 }) := by decide

/-- V-PHP-1. -/
theorem test_php : Goes (start [0x08] [])
    (fun s => { s.write 0x01FD 0x34 with sp := 0xFC, pc := 0x1001 }) := by decide

/-- V-PLA-1, from A = 0x55 so that the load shows. -/
theorem test_pla : Goes { start [0x68] [] with a := 0x55, sp := 0xFA }
    (fun s => { s with a := 0x00, sp := 0xFB, pc := 0x1001, p := 0x26 }) := by decide

/-- V-PLA-2. -/
theorem test_pla_wraps : Goes { start [0x68] [(0x0100, 0x80)] with sp := 0xFF }
    (fun s => { s with a := 0x80, sp := 0x00, pc := 0x1001, p := 0xA4 }) := by decide

/-- V-PLP-1. -/
theorem test_plp_ones : Goes { start [0x28] [(0x01FB, 0xFF)] with sp := 0xFA }
    (fun s => { s with sp := 0xFB, pc := 0x1001, p := 0xEF }) := by decide

/-- V-PLP-2. -/
theorem test_plp_zeros : Goes { start [0x28] [] with sp := 0xFA }
    (fun s => { s with sp := 0xFB, pc := 0x1001, p := 0x20 }) := by decide

/-- V-FL-1. -/
theorem test_clc : Goes { start [0x18] [] with p := 0x25 }
    (fun s => { s with pc := 0x1001, p := 0x24 }) := by decide

/-- V-FL-2. -/
theorem test_cld : Goes { start [0xD8] [] with p := 0x2C }
    (fun s => { s with pc := 0x1001, p := 0x24 }) := by decide

/-- V-FL-3. -/
theorem test_cli : Goes (start [0x58] [])
    (fun s => { s with pc := 0x1001, p := 0x20 }) := by decide

/-- V-FL-4. -/
theorem test_clv : Goes { start [0xB8] [] with p := 0x64 }
    (fun s => { s with pc := 0x1001, p := 0x24 }) := by decide

/-- V-FL-5. -/
theorem test_sec : Goes (start [0x38] [])
    (fun s => { s with pc := 0x1001, p := 0x25 }) := by decide

/-- V-FL-6. -/
theorem test_sed : Goes (start [0xF8] [])
    (fun s => { s with pc := 0x1001, p := 0x2C }) := by decide

/-- V-FL-7. -/
theorem test_sei : Goes { start [0x78] [] with p := 0x20 }
    (fun s => { s with pc := 0x1001, p := 0x24 }) := by decide

/-- V-BRK-1. -/
theorem test_brk : Goes { start [0x00] [(0xFFFE, 0x00), (0xFFFF, 0x03)] with p := 0x27 }
    (fun s => { ((s.write 0x01FD 0x10).write 0x01FC 0x02).write 0x01FB 0x37 with sp := 0xFA, pc := 0x0300 }) := by decide

/-- V-BRK-2. -/
theorem test_brk_wraps : Goes { start [0x00] [(0xFFFE, 0x34), (0xFFFF, 0x12)] with sp := 0x01, p := 0x28 }
    (fun s => { ((s.write 0x0101 0x10).write 0x0100 0x02).write 0x01FF 0x38 with sp := 0xFE, pc := 0x1234, p := 0x2C }) := by decide

/-- V-RTI-1. -/
theorem test_rti : Goes { start [0x40] [(0x01FB, 0x37), (0x01FC, 0x0D), (0x01FD, 0x02)] with sp := 0xFA }
    (fun s => { s with sp := 0xFD, pc := 0x020D, p := 0x27 }) := by decide

/-- V-RTI-2. -/
theorem test_rti_ones : Goes { start [0x40] [(0x01FB, 0xFF), (0x01FC, 0x00), (0x01FD, 0x80)] with sp := 0xFA }
    (fun s => { s with sp := 0xFD, pc := 0x8000, p := 0xEF }) := by decide

/-- V-NOP-1. -/
theorem test_nop : Goes { start [0xEA] [] with a := 0x12, p := 0xE7 }
    (fun s => { s with pc := 0x1001 }) := by decide

/-- V-INV-1. -/
theorem test_invalid : Goes { start [0x02] [] with a := 0x12, x := 0x34, p := 0xE7 }
    (fun s => { s with pc := 0x1001 }) := by decide

/-- V-INV-2. -/
theorem test_invalid_FF : Goes { start [0xFF] [] with a := 0x12 }
    (fun s => { s with pc := 0x1001 }) := by decide

/-- V-AM-8: fetch wraps PC. -/
theorem test_fetch_wraps : (after (placeAtPC { State.reset with pc := 0xFFFF } [0xEA])).map (·.pc) = some 0x0000 := by decide

/-- V-BR-10: a branch past the top of memory. -/
theorem test_branch_wraps : (after (placeAtPC { State.reset with pc := 0xFFFE } [0xD0, 0x04])).map (·.pc) = some 0x0004 := by decide

/-- V-TR-6: TXS as the silicon does it. -/
theorem test_txs_without_flags : transferToSP false (start [0x9A] []) = { start [0x9A] [] with sp := 0x00 } := by decide

/-- V-INV-1's report. -/
theorem test_report_invalid : report (start [0x02] []) =
    { pc := 0x1000, opcode := 0x02, operand := 0x0000, mnemonic := .invalid, mode := .invalid, illegal := true } := by decide

/-- R131: the raw value of a Relative operand is zero-extended, and a defined opcode is not illegal. -/
theorem test_report_relative : report (start [0xD0, 0xFC] []) =
    { pc := 0x1000, opcode := 0xD0, operand := 0x00FC, mnemonic := .bne, mode := .relative, illegal := false } := by decide

/-- V-DEC-1: with D = 1, ADC gives the open parameter's result, and every other effect stands. -/
theorem test_decimal_is_open : (after { start [0x69, 0x01] [] with a := 0x09, p := 0x2C }).map (fun t => (t.a, t.pc)) =
    some ((Config.decimalAdc 0x09 0x01 false).value, 0x1002) := by rfl

/-- I3's check values of the instantiation `nmos_bcd`. -/
theorem test_nmosBcd :
    ((nmosBcdAdc 0x15 0x27 false).value, (nmosBcdAdc 0x15 0x27 false).c) = (0x42, false) ∧
    ((nmosBcdAdc 0x99 0x01 false).value, (nmosBcdAdc 0x99 0x01 false).c, (nmosBcdAdc 0x99 0x01 false).z) = (0x00, true, false) ∧
    ((nmosBcdSbc 0x42 0x15 true).value, (nmosBcdSbc 0x42 0x15 true).c) = (0x27, true) ∧
    ((nmosBcdSbc 0x00 0x01 true).value, (nmosBcdSbc 0x00 0x01 true).c) = (0x99, false) := by decide

/-- W7: A, operand and carry in; A and N, V, Z, C after. -/
theorem test_adc_W7 :
    binaryAdc 0x00 0x05 false = ⟨0x05, false, false, false, false⟩ ∧ binaryAdc 0x05 0xFB false = ⟨0x00, false, false, true, true⟩ ∧
    binaryAdc 0x00 0x01 true = ⟨0x02, false, false, false, false⟩ ∧ binaryAdc 0x02 0x7F false = ⟨0x81, true, true, false, false⟩ ∧
    binaryAdc 0x81 0x80 false = ⟨0x01, false, true, false, true⟩ ∧ binaryAdc 0x01 0x01 true = ⟨0x03, false, false, false, false⟩ ∧
    binaryAdc 0x03 0xFF false = ⟨0x02, false, false, false, true⟩ := by decide

/-- V-RST-1. -/
theorem test_reset : ({ start [] [(0xFFFC, 0x00), (0xFFFD, 0x80)] with
      a := 0x12, x := 0x34, y := 0x56, sp := 0x00, p := 0xFF, pc := 0xABCD } : State).resetCore =
    { start [] [(0xFFFD, 0x80)] with pc := 0x8000 } := by decide

/-- V-RST-2. -/
theorem test_reset_vector : (State.boot [(0xFFFC, 0xFF), (0xFFFD, 0xFF)]).pc = 0xFFFF := by decide

/-- Storing what an unlisted address reads as removes the cell: memories stay canonical. -/
theorem test_memory_canonical : (start [] [(0x2000, 0x5A), (0x2000, 0x00)]).mem = [] ∧
    (start [] [(0x2001, 0x01), (0x2000, 0x02)]).mem = [(0x2000, 0x02), (0x2001, 0x01)] := by decide

/-- R76: the accesses of ASL $10, in order. -/
theorem test_accesses : stepAccesses (start [0x06, 0x10] [(0x0010, 0x80)]) =
    [.read 0x1000, .read 0x1001, .read 0x0010, .write 0x0010 0x00] := by decide

/-- P5's last step, and the host's policy: halt at the illegal opcode, or go on with the NOP after it. -/
theorem test_hostRun :
    (hostRun .halt 5 (start [0x02, 0xEA, 0x4C, 0x02, 0x10] [])).2.pc = 0x1001 ∧
    (hostRun .continue 5 (start [0x02, 0xEA, 0x4C, 0x02, 0x10] [])).1 = .fixedPoint ∧
    (hostRun .continue 1 (start [0x02, 0xEA] [])).1 = .budget := by decide

/-- The host's word as the first instruction after reset: JMP ($30FF) over zeros, and an undefined opcode. -/
theorem test_withFetchWord :
    (State.reset.withFetchWord 24 0x30FF6C).fetch.instr = .jmp (.indirect 0x30FF) ∧
    (State.reset.withFetchWord 8 0x02).fetch.instr = .invalid 0x02 ∧
    after (State.reset.withFetchWord 16 0x80A9) =
      some { State.reset.withFetchWord 16 0x80A9 with a := 0x80, p := 0xA4, pc := 0x0002 } := by decide

/-! ### Witnesses: concrete values that meet the hypotheses of the statements, at boundary values -/

/-- DecodeOfEncodeIsTheInstruction. -/
theorem witness_DecodeOfEncodeIsTheInstruction : (Instr.jmp (.indirect 0xFFFF)).wf = true ∧ (Instr.invalid 0xFF).wf = true := by decide

/-- EncodeOfDecodeIsTheBytes. -/
theorem witness_EncodeOfDecodeIsTheBytes :
    decode [0x6C, 0xFF, 0xFF, 0xEA] = .decoded (.jmp (.indirect 0xFFFF)) [0xEA] ∧ decode [0xFF] = .decoded (.invalid 0xFF) [] := by
  decide

/-- LengthIsFixedByTheOpcode: one byte too few, and just enough, for each width. -/
theorem witness_LengthIsFixedByTheOpcode :
    ([] : List Byte).length < (opcodeMap 0xA9).2.width ∧ ([0x00] : List Byte).length < (opcodeMap 0x20).2.width ∧
    (opcodeMap 0x02).2.width ≤ ([] : List Byte).length ∧ (opcodeMap 0xA9).2.width ≤ ([0x00] : List Byte).length ∧
    (opcodeMap 0x20).2.width ≤ ([0x00, 0x00] : List Byte).length := by decide

/-- OpcodeMapIsTotal: both alternatives, at the first and last byte of each. -/
theorem witness_OpcodeMapIsTotal : 0x02 ∈ invalidOpcodes ∧ 0xFF ∈ invalidOpcodes ∧ 0x00 ∉ invalidOpcodes ∧
    0xFE ∉ invalidOpcodes := by decide

/-- Programs at the top of memory. -/
def atTop (bytes : List Byte) : State := placeAtPC { State.reset with pc := 0xFFFF } bytes

/-- FetchAndResolve: each width, with the operand bytes past the wrap of PC. -/
theorem witness_FetchAndResolve : (opcodeMap (atTop [0xEA]).fetch.opcode).2.width = 0 ∧
    (opcodeMap (atTop [0xA9, 0x80]).fetch.opcode).2.width = 1 ∧
    (opcodeMap (atTop [0x6C, 0xFF, 0x30]).fetch.opcode).2.width = 2 := by decide

/-- StepRunsTheDecodedInstruction. -/
theorem witness_StepRunsTheDecodedInstruction :
    decode [(atTop [0x6C, 0xFF, 0x30]).read 0xFFFF, (atTop [0x6C, 0xFF, 0x30]).read 0x0000, (atTop [0x6C, 0xFF, 0x30]).read 0x0001] =
      .decoded (.jmp (.indirect 0x30FF)) [] ∧
    decode [(atTop [0xEA]).read 0xFFFF, (atTop [0xEA]).read 0x0000, (atTop [0xEA]).read 0x0001] = .decoded .nop [0x00, 0x00] := by
  decide

/-- PCAfterEachInstruction: every clause, the offsets at the ends of their range. -/
theorem witness_PCAfterEachInstruction :
    (atTop [0xEA]).fetch.instr.mnemonic = .nop ∧ (atTop [0xFF]).fetch.instr.mnemonic = .invalid ∧
    (atTop [0x90, 0x80]).fetch.instr = .bcc 0x80 ∧ (atTop [0xB0, 0x7F]).fetch.instr = .bcs 0x7F ∧
    (atTop [0xF0, 0x80]).fetch.instr = .beq 0x80 ∧ (atTop [0xD0, 0x7F]).fetch.instr = .bne 0x7F ∧
    (atTop [0x10, 0x80]).fetch.instr = .bpl 0x80 ∧ (atTop [0x30, 0x7F]).fetch.instr = .bmi 0x7F ∧
    (atTop [0x50, 0x80]).fetch.instr = .bvc 0x80 ∧ (atTop [0x70, 0x7F]).fetch.instr = .bvs 0x7F ∧
    (atTop [0x4C, 0xFF, 0xFF]).fetch.instr = .jmp (.absolute 0xFFFF) ∧
    (atTop [0x6C, 0xFF, 0xFF]).fetch.instr = .jmp (.indirect 0xFFFF) ∧ (atTop [0x20, 0x00, 0x00]).fetch.instr = .jsr 0x0000 ∧
    (atTop [0x60]).fetch.instr = .rts ∧ (atTop [0x40]).fetch.instr = .rti ∧ (atTop [0x00]).fetch.instr = .brk := by decide

/-- BinaryAddIsExact: D = 0, with a sum that overflows and one that does not. -/
theorem witness_BinaryAddIsExact : State.reset.flag .D = false ∧ (binaryAdc 0x7F 0x01 false).v = true ∧
    (binaryAdc 0x7F 0x00 false).v = false := by decide

/-- BinarySubtractIsExact: D = 0, with a difference that overflows and one that does not. -/
theorem witness_BinarySubtractIsExact : State.reset.flag .D = false ∧ (binarySbc 0x80 0x01 true).v = true ∧
    (binarySbc 0x80 0x00 true).v = false := by decide

/-- LoadsCopyTheOperand and the other statements with frames: `SetsRegNZ`'s inner clauses speak of other registers, flags and
bytes, and there are some. -/
theorem witness_frames : Reg.X ∉ [Reg.A] ∧ Flag.C ∉ [Flag.N, .Z] ∧ (0x01FE : Word) ∉ [stackAddr 0xFF, stackAddr 0x00] := by decide

/-- InvalidOpcodeIsReportedAndSkipped and AtMostOneEventPerStep: the first and last undefined byte, and a Break. -/
theorem witness_InvalidOpcodeIsReportedAndSkipped : (atTop [0x02]).read 0xFFFF ∈ invalidOpcodes ∧
    (atTop [0xFF]).read 0xFFFF ∈ invalidOpcodes ∧ (report (atTop [0xFF])).illegal = true ∧ (atTop [0x00]).fetch.instr = .brk := by
  decide

/-- OnlyTheListedInstructionsWriteAFlag. -/
theorem witness_OnlyTheListedInstructionsWriteAFlag : (∃ t, exec (.lda (.immediate 0x80)) State.reset = .next t) ∧
    (Instr.lda (.immediate 0x80)).mnemonic ∉ flagWriters .V := ⟨⟨_, rfl⟩, by decide⟩

/-- OnlyTheListedInstructionsWriteARegister: a shift of a cell leaves A. -/
theorem witness_OnlyTheListedInstructionsWriteARegister : (∃ t, exec (.asl (.mem (.zeroPage 0xFF))) State.reset = .next t) ∧
    (Instr.asl (.mem (.zeroPage 0xFF))).mnemonic ∉ regWriters .A ∧
    ¬(Reg.A = .A ∧ (Instr.asl (.mem (.zeroPage 0xFF))).mode = .accumulator) := ⟨⟨_, rfl⟩, by decide, by decide⟩

/-- UnusedBitReadsOne. -/
theorem witness_UnusedBitReadsOne : getFlag State.reset.p .U = true := by decide

/-- StepReadsOnlyItsAccesses: LDA $10 over two memories that differ at 0x2000. -/
theorem witness_StepReadsOnlyItsAccesses : let s := start [0xA5, 0x10] [(0x0010, 0x7F)]
    let other := (s.write 0x2000 0x55).mem
    other ≠ s.mem ∧
    ∀ addr, Access.read addr ∈ stepAccesses s → ({ s with mem := other } : State).read addr = s.read addr := by
  have h : stepAccesses (start [0xA5, 0x10] [(0x0010, 0x7F)]) = [.read 0x1000, .read 0x1001, .read 0x0010] := by decide
  refine ⟨by decide, fun addr ha => ?_⟩
  rw [h] at ha
  simp only [List.mem_cons, Access.read.injEq, List.not_mem_nil, or_false] at ha
  rcases ha with rfl | rfl | rfl <;> decide

/-- StepKeepsInvariant. -/
theorem witness_StepKeepsInvariant : State.reset.Inv ∧ ∃ t, step State.reset = .next t :=
  ⟨⟨wf_reset, by decide, by decide⟩, exec_next _ _⟩

/-- EveryReachableStateMeetsInvariant: a state reached by every kind of call. -/
theorem witness_EveryReachableStateMeetsInvariant : ∃ s, Reachable s ∧ s.sp = 0xFD ∧ s.mem ≠ [] :=
  ⟨_, ⟨[], wf_nil, [.write 0xFFFD 0x80, .step, .setStatus 0xFF, .setReg .SP 0x00, .setPC 0x1234, .reset], rfl⟩, by decide, by decide⟩

/-- ResetState: two states of one memory and different registers. -/
theorem witness_ResetState : let s := start [0xEA] []
    let u : State := { s with a := 0x12, sp := 0x00, p := 0xFF }
    u.mem = s.mem ∧ u ≠ s := by decide

/-- FixedPointIsNeverLeft: JMP to itself (P4), and V-BR-4. -/
theorem witness_FixedPointIsNeverLeft :
    (let s := start [0x4C, 0x00, 0x10] []; ∃ t, step s = .next t ∧ isFixedPoint s t = true) ∧
    (let s : State := { start [0xB0, 0xFE] [] with p := 0x25 }; ∃ t, step s = .next t ∧ isFixedPoint s t = true) :=
  ⟨⟨_, rfl, by decide⟩, ⟨_, rfl, by decide⟩⟩

/-- HaltPolicyStopsAtUndefinedOpcode: the halt after the second step. -/
theorem witness_HaltPolicyStopsAtUndefinedOpcode :
    ∃ r t, hostRun .halt 2 (start [0xEA, 0xFF] []) = (.illegal r, t) := ⟨_, _, rfl⟩

/-- PolicyMattersOnlyAtIllegalOpcodes: two NOPs. -/
theorem witness_PolicyMattersOnlyAtIllegalOpcodes : NoIllegalFor 2 (start [0xEA, 0xEA] []) := by
  refine ⟨by decide, fun t ht => ⟨?_, fun _ _ => trivial⟩⟩
  cases ht
  decide

end Sys2Proof.Tests
end

/-! PROOFS. The effective addresses as numbers (40_execution_cycle.md R140 to R147) and the stack ring (R34, R152, R153). -/

namespace Sys2Proof.Machine

/-! ### Words as numbers -/

@[simp] theorem toNat_zext (b : Byte) : (zext b).toNat = b.toNat :=
  BitVec.toNat_setWidth_of_le (by decide)

theorem zext_eq_ofNat (b : Byte) : zext b = BitVec.ofNat 16 b.toNat := (BitVec.ofNat_toNat 16 b).symm

theorem toNat_zext_add (b c : Byte) : (zext (b + c)).toNat = (b.toNat + c.toNat) % 256 := by
  rw [toNat_zext, BitVec.toNat_add]

theorem toNat_add_zext (w : Word) (b : Byte) : (w + zext b).toNat = (w.toNat + b.toNat) % 65536 := by
  rw [BitVec.toNat_add, toNat_zext]

theorem toNat_highByte (w : Word) : (highByte w).toNat = w.toNat / 256 := by
  have := w.isLt
  simp [highByte, BitVec.extractLsb'_toNat, Nat.shiftRight_eq_div_pow]
  omega

theorem toNat_lowByte (w : Word) : (lowByte w).toNat = w.toNat % 256 := by
  simp [lowByte, BitVec.extractLsb'_toNat]

/-! ### Pointers -/

theorem toNat_readPair (s : State) (lo hi : Word) :
    (s.readPair lo hi).toNat = (s.read hi).toNat * 256 + (s.read lo).toNat :=
  toNat_join _ _

/-- A pointer in page 0 takes its high byte from the next byte of page 0 (R145, R146). -/
theorem toNat_zeroPagePointer (s : State) (p : Byte) :
    (zeroPagePointer s p).toNat =
      (s.read (BitVec.ofNat 16 ((p.toNat + 1) % 256))).toNat * 256 + (s.read (BitVec.ofNat 16 p.toNat)).toNat := by
  rw [zeroPagePointer, toNat_readPair, zext_eq_ofNat, zext_eq_ofNat, BitVec.toNat_add]
  rfl

/-- The masks of R144 take the page from the pointer and the offset from its successor. -/
theorem indirectHighAddr_eq_join (w : Word) : indirectHighAddr w = joinBytes (highByte w) (lowByte (w + 1#16)) := by
  apply BitVec.eq_of_getLsbD_eq
  intro i hi
  have hhi : ∀ j < 16, (0xFF00#16).getLsbD j = decide (8 ≤ j) := by decide
  have hlo : ∀ j < 16, (0x00FF#16).getLsbD j = decide (j < 8) := by decide
  rw [indirectHighAddr, BitVec.getLsbD_or, BitVec.getLsbD_and, BitVec.getLsbD_and, hhi i hi, hlo i hi, joinBytes,
    BitVec.getLsbD_append]
  by_cases h : i < 8
  · simp [lowByte, h]
  · obtain ⟨j, rfl⟩ := Nat.exists_eq_add_of_le (Nat.le_of_not_lt h)
    have hj : j < 8 := by omega
    simp [highByte, hj]

/-- The high byte of an Indirect target comes from the page of the pointer (R144). -/
theorem indirectHighAddr_eq (w : Word) :
    indirectHighAddr w = BitVec.ofNat 16 (w.toNat / 256 * 256 + (w.toNat + 1) % 256) := by
  apply BitVec.eq_of_toNat_eq
  have := w.isLt
  rw [indirectHighAddr_eq_join, toNat_join, toNat_highByte, toNat_lowByte, BitVec.toNat_add, BitVec.toNat_ofNat]
  simp
  omega

theorem toNat_jumpTarget_indirect (s : State) (w : Word) :
    (jumpTarget s (.indirect w)).toNat =
      (s.read (BitVec.ofNat 16 (w.toNat / 256 * 256 + (w.toNat + 1) % 256))).toNat * 256 + (s.read w).toNat := by
  rw [jumpTarget, toNat_readPair, indirectHighAddr_eq]

theorem toNat_effectiveAddr_indirectX (s : State) (b : Byte) :
    (effectiveAddr s (.indirectX b)).toNat =
      (s.read (BitVec.ofNat 16 ((b.toNat + s.x.toNat + 1) % 256))).toNat * 256 +
        (s.read (BitVec.ofNat 16 ((b.toNat + s.x.toNat) % 256))).toNat := by
  rw [effectiveAddr, toNat_zeroPagePointer, BitVec.toNat_add, Nat.mod_add_mod]

/-- Settles O11: each mode's address as a number, the indexed ones by the sum modulo the width of the index's wrap, the
pointers by their two bytes. -/
theorem effectiveAddresses : Obligations.EffectiveAddresses := fun s b w =>
  ⟨toNat_zext b, toNat_zext_add b s.x, toNat_zext_add b s.y, rfl, rfl, toNat_add_zext w s.x, toNat_add_zext w s.y,
    toNat_jumpTarget_indirect s w, toNat_effectiveAddr_indirectX s b, branchTarget_eq w b, rfl, fun _ => rfl⟩

/-! ### The stack -/

/-- SP going down wraps from 0 to 255 (R152). -/
theorem toNat_push_sp (s : State) (v : Byte) : (s.push v).sp.toNat = (s.sp.toNat + 255) % 256 := by
  rw [push_sp]
  bv_omega

/-- SP going up wraps from 255 to 0 (R153). -/
theorem toNat_pop_sp (s : State) : s.pop.2.sp.toNat = (s.sp.toNat + 1) % 256 := by
  rw [pop_sp, BitVec.toNat_add]
  rfl

theorem stackAddr_eq_ofNat (sp : Byte) : stackAddr sp = BitVec.ofNat 16 (0x0100 + sp.toNat) := by
  apply BitVec.eq_of_toNat_eq
  have := sp.isLt
  rw [toNat_stackAddr, BitVec.toNat_ofNat]
  omega

theorem push_keepsMemory (s : State) (v : Byte) : KeepsMemoryBut [stackAddr s.sp] s (s.push v) := fun addr h => by
  have hne : addr ≠ stackAddr s.sp := by simpa using h
  rw [read_push, if_neg hne]

theorem push_keepsRegs (s : State) (v : Byte) : KeepsRegsBut [.SP] s (s.push v) := fun r h => by
  have hne : r ≠ .SP := by simpa using h
  rw [State.push, reg_withReg, if_neg hne, reg_write]

theorem pop_keepsRegs (s : State) : KeepsRegsBut [.SP] s s.pop.2 := fun r h => by
  have hne : r ≠ .SP := by simpa using h
  exact (reg_withReg s .SP r _).trans (if_neg hne)

/-- A pop answers the byte at the stack address of the new SP (R153). -/
theorem pop_value_eq_read (s : State) :
    s.pop.1 = s.read (BitVec.ofNat 16 (0x0100 + (s.sp.toNat + 1) % 256)) := by
  rw [← toNat_pop_sp, ← stackAddr_eq_ofNat, pop_sp, pop_value]

/-- Settles O14: a push is one write and a pop one read, each with a step of SP modulo 256. -/
theorem stackIsARingInPageOne : Obligations.StackIsARingInPageOne := fun s v =>
  ⟨toNat_stackAddr s.sp, (read_push s v _).trans (if_pos rfl), toNat_push_sp s v, push_keepsMemory s v, push_keepsRegs s v,
    rfl, rfl, toNat_pop_sp s, pop_value_eq_read s, fun addr _ => read_pop s addr, pop_keepsRegs s, rfl, rfl⟩

end Sys2Proof.Machine

/-! PROOFS. Loads, stores and transfers (41_load_store_transfer.md R201 to R210 and R212): the rows of each mnemonic, and its effect by the
law of the one shape its meaning has. -/

namespace Sys2Proof.Machine

/-! ### Meanings of one shape -/

/-- An instruction that copies a byte to a register completes, with everything such a copy does (R200). -/
theorem exec_setsRegNZ {i : Instr} {s : State} {r : Reg} {v : Byte} (h : exec i s = .next (copyTo r v s)) :
    ∃ t, exec i s = .next t ∧ SetsRegNZ r v s t := ⟨copyTo r v s, h, copyTo_sets r v s⟩

/-- An instruction that stores a register completes, with everything such a store does (R200). -/
theorem exec_storesByte {i : Instr} {s : State} {m : MemOperand} (r : Reg) (h : exec i s = .next (storeFrom r m s)) :
    ∃ t, exec i s = .next t ∧ StoresByte (effectiveAddr s m) (s.reg r) s t :=
  ⟨storeFrom r m s, h, storeFrom_stores r m s⟩

/-! ### The statements -/

/-- Settles O15: the two clauses of each `HasRows` by computation over the opcode bytes, and each load is a copy of the
operand to its register. -/
theorem loadsCopyTheOperand : Obligations.LoadsCopyTheOperand := by
  refine ⟨⟨by decide, by decide⟩, ⟨by decide, by decide⟩, ⟨by decide, by decide⟩,
    fun o s => ⟨?lda, ?ldx, ?ldy⟩⟩
  case lda => exact exec_setsRegNZ rfl
  case ldx => exact exec_setsRegNZ rfl
  case ldy => exact exec_setsRegNZ rfl

/-- Settles O16: the two clauses of each `HasRows` by computation over the opcode bytes, and each store writes its register
at the effective address; the accesses of STA are its pointer reads and then the write. -/
theorem storesWriteTheRegister : Obligations.StoresWriteTheRegister := by
  refine ⟨⟨by decide, by decide⟩, ⟨by decide, by decide⟩, ⟨by decide, by decide⟩,
    fun m s => ⟨?sta, ?accesses, ?stx, ?sty⟩⟩
  case sta => exact exec_storesByte .A rfl
  case accesses => rfl
  case stx => exact exec_storesByte .X rfl
  case sty => exact exec_storesByte .Y rfl

/-- Settles O17: the two clauses of each `HasRows` by computation over the opcode bytes, and each transfer is a copy of its
source to its destination. -/
theorem transfersCopyARegister : Obligations.TransfersCopyARegister := by
  refine ⟨⟨by decide, by decide⟩, ⟨by decide, by decide⟩, ⟨by decide, by decide⟩,
    ⟨by decide, by decide⟩, ⟨by decide, by decide⟩, fun s => ⟨?tax, ?tay, ?tsx, ?txa, ?tya⟩⟩
  case tax => exact exec_setsRegNZ rfl
  case tay => exact exec_setsRegNZ rfl
  case tsx => exact exec_setsRegNZ rfl
  case txa => exact exec_setsRegNZ rfl
  case tya => exact exec_setsRegNZ rfl

end Sys2Proof.Machine

/-! PROOFS. Add, subtract and bit test (42_arithmetic_logic.md R301, R302, R306): the rows of each mnemonic, and its effect by the law of
the shape its meaning has. -/

namespace Sys2Proof.Machine

/-! ### Add and subtract -/

/-- An instruction that puts an arithmetic result into A and P completes, with everything `withArith` does (R301, R302). -/
theorem exec_setsArith {i : Instr} {s : State} {r : ArithResult} (h : exec i s = .next (withArith s r)) :
    ∃ t, exec i s = .next t ∧ SetsArith r s t := ⟨withArith s r, h, withArith_sets s r⟩

/-- The one's complement is the exclusive or with 0xFF, so SBC with D = 0 is ADC with that operand (R302). -/
theorem sbcResult_eq (d : Bool) (a m : Byte) (c : Bool) :
    sbcResult d a m c = if d then Config.decimalSbc a m c else binaryAdc a (0xFF#8 ^^^ m) c := by
  rw [sbcResult, binarySbc, BitVec.not_def]
  rfl

theorem exec_adc (o : ReadOperand) (s : State) :
    exec (.adc o) s = .next (withArith s (if s.flag .D then Config.decimalAdc s.a (operandValue s o) (s.flag .C)
      else binaryAdc s.a (operandValue s o) (s.flag .C))) := rfl

theorem exec_sbc (o : ReadOperand) (s : State) :
    exec (.sbc o) s = .next (withArith s (if s.flag .D then Config.decimalSbc s.a (operandValue s o) (s.flag .C)
      else binaryAdc s.a (0xFF#8 ^^^ operandValue s o) (s.flag .C))) := by
  rw [← sbcResult_eq]
  rfl

/-- Settles O19: the two clauses of `HasRows` by computation over the opcode bytes, and ADC puts into A and P the result that
`exec_adc` names, whose formulas are those of `binaryAdc` when D = 0. -/
theorem addWithCarry : Obligations.AddWithCarry :=
  ⟨⟨by decide, by decide⟩, fun o s => exec_setsArith (exec_adc o s)⟩

/-- Settles O20: the two clauses of `HasRows` by computation over the opcode bytes, and SBC puts into A and P the result that
`exec_sbc` names, whose formulas are those of `binaryAdc` with the complement when D = 0. -/
theorem subtractWithBorrow : Obligations.SubtractWithBorrow :=
  ⟨⟨by decide, by decide⟩, fun o s => exec_setsArith (exec_sbc o s)⟩

/-! ### Bit test -/

/-- BIT writes Z, N and V and no other bit of P (R306). -/
theorem getFlag_bitStatus (p a m : Byte) (g : Flag) :
    getFlag (bitStatus p a m) g =
      if g = .V then m.getLsbD 6 else if g = .N then m.getLsbD 7 else if g = .Z then (a &&& m) == 0x00#8 else getFlag p g := by
  simp only [bitStatus, getFlag_setFlag]

theorem bitStatus_keepsFlags (s : State) (m : Byte) :
    KeepsFlagsBut [.Z, .N, .V] s (s.withStatus (bitStatus s.p s.a m)) := fun g h => by
  obtain ⟨hZ, hN, hV⟩ : g ≠ .Z ∧ g ≠ .N ∧ g ≠ .V := by simpa using h
  rw [flag_withStatus, getFlag_bitStatus, if_neg hV, if_neg hN, if_neg hZ, flag_eq]

/-- Settles O24: the two clauses of `HasRows` by computation over the opcode bytes; BIT replaces P by `bitStatus`, of which
each flag is read off, and touches nothing else. -/
theorem bitTest : Obligations.BitTest := by
  refine ⟨⟨by decide, by decide⟩, fun m s => ⟨_, rfl, ?Z, ?N, ?V, ?regs, bitStatus_keepsFlags s _, ?memory, rfl⟩⟩
  case Z => simp [getFlag_bitStatus]
  case N => simp [getFlag_bitStatus]
  case V => simp [getFlag_bitStatus]
  case regs => exact fun r _ => reg_withStatus s _ r
  case memory => exact fun addr _ => read_withStatus s _ addr

end Sys2Proof.Machine

/-! PROOFS. Shifts, rotates, increments and decrements (43_shift_incdec.md R401 to R410): the results as numbers, the rows of each
mnemonic, and its effect by the law of the shape its meaning has. -/

namespace Sys2Proof.Machine

/-! ### Results as numbers -/

theorem shiftLeft_one_eq_ofNat (v : Byte) : v <<< 1 = BitVec.ofNat 8 (2 * v.toNat) := by
  rw [BitVec.shiftLeft_eq_mul_twoPow, BitVec.mul_comm, BitVec.ofNat_mul, BitVec.ofNat_toNat, BitVec.setWidth_eq]
  rfl

theorem ushiftRight_one_eq_ofNat (v : Byte) : v >>> 1 = BitVec.ofNat 8 (v.toNat / 2) := by
  apply BitVec.eq_of_toNat_eq
  have := v.isLt
  rw [BitVec.toNat_ushiftRight, Nat.shiftRight_one, BitVec.toNat_ofNat]
  omega

theorem ite_eq_ofNat_mul_toNat (n : Nat) (c : Bool) :
    (if c then BitVec.ofNat 8 n else 0x00#8) = BitVec.ofNat 8 (n * c.toNat) := by
  cases c <;> simp

theorem aslByte_value (v : Byte) (c : Bool) : (aslByte v c).value = BitVec.ofNat 8 (2 * v.toNat) :=
  shiftLeft_one_eq_ofNat v

theorem lsrByte_value (v : Byte) (c : Bool) : (lsrByte v c).value = BitVec.ofNat 8 (v.toNat / 2) :=
  ushiftRight_one_eq_ofNat v

/-- The shift leaves bit 0 clear, so putting the old C there is an addition (R403). -/
theorem rolByte_value (v : Byte) (c : Bool) : (rolByte v c).value = BitVec.ofNat 8 (2 * v.toNat + c.toNat) := by
  have hclear : ∀ v : Byte, ∀ c : Bool, (v <<< 1) &&& (if c then 0x01#8 else 0x00#8) = 0#8 := by decide
  rw [rolByte, ← BitVec.add_eq_or_of_and_eq_zero _ _ (hclear v c), shiftLeft_one_eq_ofNat, ite_eq_ofNat_mul_toNat,
    Nat.one_mul, BitVec.ofNat_add]

/-- The shift leaves bit 7 clear, so putting the old C there is an addition (R404). -/
theorem rorByte_value (v : Byte) (c : Bool) : (rorByte v c).value = BitVec.ofNat 8 (v.toNat / 2 + 128 * c.toNat) := by
  have hclear : ∀ v : Byte, ∀ c : Bool, (v >>> 1) &&& (if c then 0x80#8 else 0x00#8) = 0#8 := by decide
  rw [rorByte, ← BitVec.add_eq_or_of_and_eq_zero _ _ (hclear v c), ushiftRight_one_eq_ofNat, ite_eq_ofNat_mul_toNat,
    BitVec.ofNat_add]

/-- A 0 enters bit 7 (R402). -/
theorem getLsbD_seven_lsrByte (v : Byte) (c : Bool) : (lsrByte v c).value.getLsbD 7 = false := by
  simp [lsrByte]

/-- The old C enters bit 7 (R404). -/
theorem getLsbD_seven_rorByte (v : Byte) (c : Bool) : (rorByte v c).value.getLsbD 7 = c := by
  cases c <;> simp [rorByte]

theorem add_one_eq_ofNat (v : Byte) : v + 1#8 = BitVec.ofNat 8 (v.toNat + 1) := by
  bv_omega

theorem sub_one_eq_ofNat (v : Byte) : v - 1#8 = BitVec.ofNat 8 (v.toNat + 255) := by
  bv_omega

/-! ### Meanings of one shape -/

/-- An instruction that shifts a location completes, with everything `shiftAt` does (R400); N is bit 7 of the result. -/
theorem exec_shiftsTo {i : Instr} {f : Byte → Bool → ShiftResult} {l : Location} {s : State}
    (h : exec i s = .next (shiftAt f l s)) :
    let r := f (readLoc s (resolveLoc s l)) (s.flag .C)
    ∃ t, exec i s = .next t ∧ ShiftsTo l r.value r.carry s t ∧ t.flag .N = r.value.getLsbD 7 := by
  obtain ⟨-, -, ⟨hN, -⟩, -, -⟩ := shiftAt_shifts f l s
  exact ⟨shiftAt f l s, h, shiftAt_shifts f l s, hN⟩

/-! ### The statements -/

/-- Settles O25: the two clauses of each `HasRows` by computation over the opcode bytes, and each shift is `shiftAt` of its
byte function, whose value is the statement's number. -/
theorem shiftsAndRotates : Obligations.ShiftsAndRotates := by
  refine ⟨⟨by decide, by decide⟩, ⟨by decide, by decide⟩, ⟨by decide, by decide⟩, ⟨by decide, by decide⟩,
    fun l s => ⟨?asl, ?lsr, ?rol, ?ror⟩⟩
  case asl =>
    obtain ⟨t, ht, hs, -⟩ := exec_shiftsTo (i := .asl l) (s := s) rfl
    exact ⟨t, ht, aslByte_value _ _ ▸ hs⟩
  case lsr =>
    obtain ⟨t, ht, hs, hN⟩ := exec_shiftsTo (i := .lsr l) (s := s) rfl
    exact ⟨t, ht, lsrByte_value _ _ ▸ hs, hN.trans (getLsbD_seven_lsrByte _ _)⟩
  case rol =>
    obtain ⟨t, ht, hs, -⟩ := exec_shiftsTo (i := .rol l) (s := s) rfl
    exact ⟨t, ht, rolByte_value _ _ ▸ hs⟩
  case ror =>
    obtain ⟨t, ht, hs, hN⟩ := exec_shiftsTo (i := .ror l) (s := s) rfl
    exact ⟨t, ht, rorByte_value _ _ ▸ hs, hN.trans (getLsbD_seven_rorByte _ _)⟩

/-- Settles O27: the two clauses of each `HasRows` by computation over the opcode bytes, and INC and DEC are `stepCell` of the
successor and the predecessor modulo 256. -/
theorem incrementDecrementMemory : Obligations.IncrementDecrementMemory := by
  refine ⟨⟨by decide, by decide⟩, ⟨by decide, by decide⟩, fun m s => ⟨?inc, ?dec⟩⟩
  case inc => exact ⟨_, rfl, add_one_eq_ofNat _ ▸ stepCell_steps (· + 1#8) m s⟩
  case dec => exact ⟨_, rfl, sub_one_eq_ofNat _ ▸ stepCell_steps (· - 1#8) m s⟩

/-- Settles O28: the two clauses of each `HasRows` by computation over the opcode bytes, and each instruction copies its
register's successor or predecessor modulo 256 back to it. -/
theorem incrementDecrementRegister : Obligations.IncrementDecrementRegister := by
  refine ⟨⟨by decide, by decide⟩, ⟨by decide, by decide⟩, ⟨by decide, by decide⟩, ⟨by decide, by decide⟩,
    fun s => ⟨?inx, ?iny, ?dex, ?dey⟩⟩
  case inx => exact add_one_eq_ofNat s.x ▸ exec_setsRegNZ rfl
  case iny => exact add_one_eq_ofNat s.y ▸ exec_setsRegNZ rfl
  case dex => exact sub_one_eq_ofNat s.x ▸ exec_setsRegNZ rfl
  case dey => exact sub_one_eq_ofNat s.y ▸ exec_setsRegNZ rfl

end Sys2Proof.Machine

/-! PROOFS. Compares, branches and jumps (44_compare_branch_jump.md R501 to R503, R511 to R518, R520 to R522): the rows of each
mnemonic, and its effect by the law of the shape its meaning has. -/

namespace Sys2Proof.Machine

/-! ### Branches -/

/-- A taken branch goes to PC plus the signed offset; one that is not taken answers the state itself (R510). -/
theorem branchIf_eq_ite (c : Bool) (d : Byte) (s : State) :
    branchIf c d s = if c = true then { s with pc := BitVec.ofInt 16 (s.pc.toNat + d.toInt) } else s := by
  rw [← branchTarget_eq]
  rfl

theorem branchIf_not_eq_ite (c : Bool) (d : Byte) (s : State) :
    branchIf (!c) d s = if c = false then { s with pc := BitVec.ofInt 16 (s.pc.toNat + d.toInt) } else s := by
  simp only [branchIf_eq_ite, Bool.not_eq_true']

/-- Settles O30: the two clauses of each `HasRows` by computation over the opcode bytes, and each branch is `branchIf` of its
flag or of the flag's negation. -/
theorem branchesTestOneFlag : Obligations.BranchesTestOneFlag := by
  refine ⟨⟨by decide, by decide⟩, ⟨by decide, by decide⟩, ⟨by decide, by decide⟩, ⟨by decide, by decide⟩,
    ⟨by decide, by decide⟩, ⟨by decide, by decide⟩, ⟨by decide, by decide⟩, ⟨by decide, by decide⟩,
    fun d s => ⟨?bcc, ?bcs, ?beq, ?bne, ?bpl, ?bmi, ?bvc, ?bvs⟩⟩
  case bcc => exact congrArg _ (branchIf_not_eq_ite (s.flag .C) d s)
  case bcs => exact congrArg _ (branchIf_eq_ite (s.flag .C) d s)
  case beq => exact congrArg _ (branchIf_eq_ite (s.flag .Z) d s)
  case bne => exact congrArg _ (branchIf_not_eq_ite (s.flag .Z) d s)
  case bpl => exact congrArg _ (branchIf_not_eq_ite (s.flag .N) d s)
  case bmi => exact congrArg _ (branchIf_eq_ite (s.flag .N) d s)
  case bvc => exact congrArg _ (branchIf_not_eq_ite (s.flag .V) d s)
  case bvs => exact congrArg _ (branchIf_eq_ite (s.flag .V) d s)

/-! ### Jumps -/

/-- The page wrap of R144 as a number. -/
theorem jumpTarget_indirect (s : State) (w : Word) :
    jumpTarget s (.indirect w) =
      joinBytes (s.read (BitVec.ofNat 16 (w.toNat / 256 * 256 + (w.toNat + 1) % 256))) (s.read w) := by
  rw [← indirectHighAddr_eq]
  rfl

/-- Settles O31: the two clauses of `HasRows` by computation over the opcode bytes, and JMP is a jump to `jumpTarget`. -/
theorem jumpSetsPC : Obligations.JumpSetsPC := by
  refine ⟨⟨by decide, by decide⟩, fun w s => ⟨?absolute, ?indirect⟩⟩
  case absolute => rfl
  case indirect => exact congrArg (fun target => Host.Outcome.next (s.jump target)) (jumpTarget_indirect s w)

/-! ### Compares -/

/-- An instruction that compares a register completes, with everything `compareWith` does (R500). -/
theorem exec_compares {i : Instr} {o : ReadOperand} {s : State} (r : Reg) (h : exec i s = .next (compareWith r o s)) :
    ∃ t, exec i s = .next t ∧ Compares (s.reg r) (operandValue s o) s t :=
  ⟨compareWith r o s, h, compareWith_compares r o s⟩

/-- Settles O29: the two clauses of each `HasRows` by computation over the opcode bytes, and each compare is `compareWith` of
its register. -/
theorem comparesSetCZN : Obligations.ComparesSetCZN := by
  refine ⟨⟨by decide, by decide⟩, ⟨by decide, by decide⟩, ⟨by decide, by decide⟩, fun o s => ⟨?cmp, ?cpx, ?cpy⟩⟩
  case cmp => exact exec_compares .A rfl
  case cpx => exact exec_compares .X rfl
  case cpy => exact exec_compares .Y rfl

/-! ### Call and return -/

theorem pushWord_keepsMemory (s : State) (w : Word) :
    KeepsMemoryBut [stackAddr s.sp, stackAddr (s.sp - 1#8)] s (s.pushWord w) := fun addr h => by
  obtain ⟨hhi, hlo⟩ : addr ≠ stackAddr s.sp ∧ addr ≠ stackAddr (s.sp - 1#8) := by simpa using h
  rw [read_pushWord, if_neg hlo, if_neg hhi]

theorem pushWord_keepsRegs (s : State) (w : Word) : KeepsRegsBut [.SP] s (s.pushWord w) := fun r h =>
  (push_keepsRegs _ _ r h).trans (push_keepsRegs s _ r h)

theorem popWord_keepsRegs (s : State) : KeepsRegsBut [.SP] s s.popWord.2 := fun r h =>
  (pop_keepsRegs _ r h).trans (pop_keepsRegs s r h)

theorem keepsRegs_jump {changed : List Reg} {s t : State} (h : KeepsRegsBut changed s t) (w : Word) :
    KeepsRegsBut changed s (t.jump w) := fun r hr => (reg_jump t w r).trans (h r hr)

theorem keepsMemory_jump {stored : List Word} {s t : State} (h : KeepsMemoryBut stored s t) (w : Word) :
    KeepsMemoryBut stored s (t.jump w) := fun addr ha => (read_jump t w addr).trans (h addr ha)

/-- SP going down by two, as a push of a word does it (R152). -/
theorem sub_one_sub_one (sp : Byte) : sp - 1#8 - 1#8 = sp - 2#8 := by
  bv_omega

/-- SP going up by two, as a pop of a word does it (R153). -/
theorem add_one_add_one (sp : Byte) : sp + 1#8 + 1#8 = sp + 2#8 := by
  bv_omega

/-- Settles O32: the two clauses of `HasRows` by computation over the opcode bytes; JSR is `pushWord` of PC - 1, whose two
slots differ, and a jump, which changes PC alone. -/
theorem jumpToSubroutine : Obligations.JumpToSubroutine := by
  refine ⟨⟨by decide, by decide⟩, fun w s => ⟨_, rfl, rfl, sub_one_sub_one s.sp, ?high, ?low,
    keepsMemory_jump (pushWord_keepsMemory s _) w, keepsRegs_jump (pushWord_keepsRegs s _) w,
    fun f _ => flag_pushWord s (s.pc - 1#16) f⟩⟩
  case high => rw [read_jump, read_pushWord, if_neg (stackAddr_ne_below s.sp), if_pos rfl]
  case low => rw [read_jump, read_pushWord, if_pos rfl]

/-- Settles O33: the two clauses of `HasRows` by computation over the opcode bytes; RTS is `popWord`, which changes SP alone,
and a jump past the popped word. -/
theorem returnFromSubroutine : Obligations.ReturnFromSubroutine := by
  refine ⟨⟨by decide, by decide⟩, fun s => ⟨_, rfl, ?pc, add_one_add_one s.sp,
    keepsMemory_jump (fun addr _ => read_popWord s addr) _, keepsRegs_jump (popWord_keepsRegs s) _,
    fun f _ => flag_popWord s f⟩⟩
  case pc => rw [jump_pc, popWord_value, add_one_add_one]

end Sys2Proof.Machine

/-! PROOFS. Pushes, flag instructions and NOP (45_stack_flags_system.md R601, R602, R605 to R611, R617): the rows of each mnemonic, and
its effect by the law of the shape its meaning has. -/

namespace Sys2Proof.Machine

/-! ### Pushes -/

/-- The byte `v` stands at the old stack address, SP is one less, and nothing else changes (R152). -/
def PushesByte (v : Byte) (s t : State) : Prop :=
  t.read (stackAddr s.sp) = v ∧ t.sp = s.sp - 1#8 ∧
    KeepsMemoryBut [stackAddr s.sp] s t ∧ KeepsRegsBut [.SP] s t ∧ KeepsFlagsBut [] s t ∧ t.p = s.p ∧ t.pc = s.pc

theorem push_pushesByte (s : State) (v : Byte) : PushesByte v s (s.push v) :=
  ⟨(read_push s v _).trans (if_pos rfl), push_sp s v, push_keepsMemory s v, push_keepsRegs s v,
    fun f _ => flag_push s v f, push_p s v, push_pc s v⟩

/-- An instruction that pushes a byte completes, with everything such a push does (R601, R602). -/
theorem exec_pushesByte {i : Instr} {s : State} {v : Byte} (h : exec i s = .next (s.push v)) :
    ∃ t, exec i s = .next t ∧ PushesByte v s t := ⟨s.push v, h, push_pushesByte s v⟩

/-- PHP pushes P as read, with B and U forced to 1 (R602, R49). -/
theorem exec_php (s : State) : exec .php s = .next (s.push (s.status ||| 0x30#8)) :=
  congrArg (fun v => Host.Outcome.next (s.push v)) (pushed_eq s.p)

/-- Settles O35: the two clauses of each `HasRows` by computation over the opcode bytes; PHA is a push of A, and PHP the push
that `exec_php` names. -/
theorem pushesWriteTheStack : Obligations.PushesWriteTheStack := by
  refine ⟨⟨by decide, by decide⟩, ⟨by decide, by decide⟩, fun s => ⟨?pha, ?php⟩⟩
  case pha => exact exec_pushesByte rfl
  case php => exact exec_pushesByte (exec_php s)

/-! ### Flag instructions -/

/-- An instruction that writes one flag completes, with everything such a write does (R612). -/
theorem exec_setsFlag {i : Instr} {s : State} {f : Flag} {b : Bool} (hf : f ≠ .U) (h : exec i s = .next (s.withFlag f b)) :
    ∃ t, exec i s = .next t ∧ SetsFlag f b s t := ⟨s.withFlag f b, h, withFlag_sets s hf b⟩

/-- Settles O39: the two clauses of each `HasRows` by computation over the opcode bytes, and each instruction is `withFlag` of
its flag, which is not U. -/
theorem flagInstructionsWriteOneFlag : Obligations.FlagInstructionsWriteOneFlag := by
  refine ⟨⟨by decide, by decide⟩, ⟨by decide, by decide⟩, ⟨by decide, by decide⟩, ⟨by decide, by decide⟩,
    ⟨by decide, by decide⟩, ⟨by decide, by decide⟩, ⟨by decide, by decide⟩,
    fun s => ⟨?clc, ?cld, ?cli, ?clv, ?sec, ?sed, ?sei⟩⟩
  case clc => exact exec_setsFlag (by decide) rfl
  case cld => exact exec_setsFlag (by decide) rfl
  case cli => exact exec_setsFlag (by decide) rfl
  case clv => exact exec_setsFlag (by decide) rfl
  case sec => exact exec_setsFlag (by decide) rfl
  case sed => exact exec_setsFlag (by decide) rfl
  case sei => exact exec_setsFlag (by decide) rfl

/-! ### NOP -/

/-- Settles O43: the two clauses of `HasRows` by computation over the opcode bytes, and NOP answers its own state. -/
theorem noOperation : Obligations.NoOperation :=
  ⟨⟨by decide, by decide⟩, fun _ => rfl⟩

end Sys2Proof.Machine

/-! PROOFS. Reset (70_reset_and_hazards.md R800, R803): the state it leaves, and that the registers before it play no part. -/

namespace Sys2Proof.Machine

/-- Right after reset U and I alone read as 1 (R800). -/
theorem flag_resetCore (s : State) (f : Flag) : s.resetCore.flag f = decide (f = .U ∨ f = .I) := by
  rw [flag_eq, resetCore_p]
  cases f <;> decide

/-- Reset looks at memory alone (R803). -/
theorem resetCore_congr {s u : State} (h : u.mem = s.mem) : u.resetCore = s.resetCore := by
  rw [resetCore_eq_boot u, resetCore_eq_boot s, h]

/-- Settles O56: each register and memory by its law of `resetCore`, each flag from the new P, and the old registers by
`resetCore_congr`. -/
theorem resetState : Obligations.ResetState := fun s =>
  ⟨rfl, resetCore_a s, resetCore_x s, resetCore_y s, resetCore_sp s, resetCore_p s, flag_resetCore s, resetCore_pc s,
    resetCore_mem s, fun _ h => resetCore_congr h⟩

end Sys2Proof.Machine

/-! PROOFS. The encoding (30_encoding.md R100 to R113): the opcode map is total, `decode` and `encode` are inverse, and the opcode
fixes the length. -/

namespace Sys2Proof.Machine

/-! ### The opcode map -/

/-- The bytes that R112 lists are those whose cell in R110 is undefined, in the same order. -/
theorem invalidOpcodes_eq_filter :
    invalidOpcodes = ((List.range 256).map (BitVec.ofNat 8)).filter fun op => (opcodeMap op).1 == .invalid := by
  decide

theorem opcodeMap_eq_invalid_iff (op : Byte) : (opcodeMap op).1 = .invalid ↔ op ∈ invalidOpcodes := by
  have hbyte : ∃ n < 256, BitVec.ofNat 8 n = op := ⟨op.toNat, op.isLt, (BitVec.ofNat_toNat 8 op).trans (BitVec.setWidth_eq op)⟩
  simpa [invalidOpcodes_eq_filter] using fun _ => hbyte

/-- The mode of an opcode is one that the rule of its mnemonic lists (R105). -/
theorem opcodeMap_mode_mem : ∀ op, (opcodeMap op).2 ∈ (opcodeMap op).1.modes := by
  decide

theorem opcodeMap_of_mem_invalidOpcodes {op : Byte} (h : op ∈ invalidOpcodes) : opcodeMap op = (.invalid, .invalid) := by
  have hmn := (opcodeMap_eq_invalid_iff op).mpr h
  have hmode := opcodeMap_mode_mem op
  rw [hmn] at hmode
  exact Prod.ext hmn (List.mem_singleton.mp hmode)

/-- Settles O4: the two lists of undefined bytes agree, and the cells of the map have listed modes. -/
theorem opcodeMapIsTotal : Obligations.OpcodeMapIsTotal := by
  refine ⟨by decide, by decide, fun op => ?_⟩
  by_cases h : op ∈ invalidOpcodes
  · exact .inl ⟨h, opcodeMap_of_mem_invalidOpcodes h⟩
  · exact .inr ⟨h, mt (opcodeMap_eq_invalid_iff op).mp h, opcodeMap_mode_mem op⟩

/-- Settles O5: by running the decoder on the eight words. -/
theorem sampleWordsDecode : Obligations.SampleWordsDecode :=
  ⟨rfl, rfl, rfl, rfl, rfl, rfl, rfl, rfl⟩

/-- The rows of R111 stand in the map of R110. -/
theorem opcodeMap_lookup_opcodesOf {mn : Mnemonic} (h : mn ≠ .invalid) :
    ∀ mode ∈ mn.modes, ((opcodesOf mn).lookup mode).map opcodeMap = some (mn, mode) := by
  cases mn
  case invalid => exact absurd rfl h
  all_goals decide

/-- The cells of R110 stand in the rows of R111. -/
theorem lookup_opcodesOf_opcodeMap :
    ∀ op, (opcodeMap op).1 ≠ .invalid → (opcodesOf (opcodeMap op).1).lookup (opcodeMap op).2 = some op := by
  decide

/-! ### The opcode byte of an instruction -/

theorem opcode_eq_lookup {i : Instr} (h : i.mnemonic ≠ .invalid) : i.opcode = (opcodesOf i.mnemonic).lookup i.mode := by
  cases i
  case invalid => exact absurd rfl h
  all_goals rfl

theorem eq_invalid_of_mnemonic {i : Instr} (h : i.mnemonic = .invalid) : ∃ op, i = .invalid op := by
  cases i
  case invalid op => exact ⟨op, rfl⟩
  all_goals cases h

/-- A well-formed instruction has an opcode byte that the map sends to its mnemonic and mode. -/
theorem opcode_of_wf {i : Instr} (h : i.wf = true) :
    ∃ op, i.opcode = some op ∧ opcodeMap op = (i.mnemonic, i.mode) ∧ ∀ own, i = .invalid own → op = own := by
  obtain ⟨hmode, hundef⟩ : i.mode ∈ i.mnemonic.modes ∧ i.opcodeUndefined = true := by simpa [Instr.wf] using h
  by_cases hi : i.mnemonic = .invalid
  · obtain ⟨op, rfl⟩ := eq_invalid_of_mnemonic hi
    exact ⟨op, rfl, opcodeMap_of_mem_invalidOpcodes (by simpa [Instr.opcodeUndefined] using hundef), fun _ => Instr.invalid.inj⟩
  · obtain ⟨op, hop, hmap⟩ := Option.map_eq_some_iff.mp (opcodeMap_lookup_opcodesOf hi _ hmode)
    exact ⟨op, (opcode_eq_lookup hi).trans hop, hmap, fun own e => absurd (congrArg Instr.mnemonic e) hi⟩

/-- The instruction of an opcode byte has that opcode byte. -/
theorem opcode_instrOf (op : Byte) (raw : Word) : (instrOf op raw).opcode = some op := by
  obtain ⟨hmn, hmode⟩ := instrOf_spec op raw
  by_cases h : (opcodeMap op).1 = .invalid
  · have hparts := instrOfParts_opcodeMap op raw
    rw [opcodeMap_of_mem_invalidOpcodes ((opcodeMap_eq_invalid_iff op).mp h)] at hparts
    exact congrArg Instr.opcode (Option.some.inj hparts).symm
  · rw [opcode_eq_lookup (hmn ▸ h), hmn, hmode, lookup_opcodesOf_opcodeMap op h]

theorem wf_instrOf (op : Byte) (raw : Word) : (instrOf op raw).wf = true := by
  obtain ⟨hmn, hmode⟩ := instrOf_spec op raw
  have hundef : (instrOf op raw).opcodeUndefined = true := by
    have hop := opcode_instrOf op raw
    cases hi : instrOf op raw
    case invalid own =>
      rw [hi] at hmn hop
      simpa [Instr.opcodeUndefined, Option.some.inj hop] using (opcodeMap_eq_invalid_iff op).mp hmn.symm
    all_goals rfl
  simpa [Instr.wf, hundef, hmn, hmode] using opcodeMap_mode_mem op

/-! ### Operand bytes -/

/-- The operand bytes that the resolver reads as `raw`, by the width of the mode (R102). -/
def rawBytes (width : Nat) (raw : Word) : List Byte :=
  match width with
  | 0 => []
  | 1 => [lowByte raw]
  | _ + 2 => [lowByte raw, highByte raw]

theorem length_rawBytes (mode : AddrMode) (raw : Word) : (rawBytes mode.width raw).length = mode.width := by
  cases mode <;> rfl

/-- The resolver takes the operand bytes off the list. -/
theorem eq_rawBytes_append {width : Nat} {bytes rest : List Byte} {raw : Word}
    (h : resolveBytes width bytes = some (raw, rest)) : bytes = rawBytes width raw ++ rest := by
  match width, bytes, h with
  | 0, _, rfl => rfl
  | 1, b :: _, rfl => simp [rawBytes]
  | _ + 2, lo :: hi :: _, rfl => simp [rawBytes, lowByte_join, highByte_join]

/-- Only too short a list does not resolve (R134). -/
theorem resolveBytes_eq_none_iff (mode : AddrMode) (bytes : List Byte) :
    resolveBytes mode.width bytes = none ↔ bytes.length < mode.width := by
  rcases width_cases mode with h | h | h <;> rw [h] <;>
    match bytes with
    | [] => simp [resolveBytes]
    | [_] => simp [resolveBytes]
    | _ :: _ :: _ => simp [resolveBytes]

theorem operandBytes_of_instrOfParts {mn : Mnemonic} {mode : AddrMode} {op : Byte} {raw : Word} {i : Instr}
    (h : instrOfParts mn mode op raw = some i) : i.operandBytes = rawBytes mode.width raw := by
  cases mn <;> cases mode <;> cases h <;> rfl

theorem operandBytes_instrOf (op : Byte) (raw : Word) :
    (instrOf op raw).operandBytes = rawBytes (opcodeMap op).2.width raw :=
  operandBytes_of_instrOfParts (instrOfParts_opcodeMap op raw)

theorem length_instrOf (op : Byte) (raw : Word) : (instrOf op raw).length = 1 + (opcodeMap op).2.width := by
  rw [Instr.length, (instrOf_spec op raw).2]

/-- The operand bytes of every instruction resolve to a raw value that gives the instruction back. -/
theorem operandBytes_resolve (i : Instr) : Laws.OperandBytesResolve.Statement i := by
  cases i with
  | lda o => exact Laws.OperandBytesResolve.lda o
  | ldx o => exact Laws.OperandBytesResolve.ldx o
  | ldy o => exact Laws.OperandBytesResolve.ldy o
  | sta m => exact Laws.OperandBytesResolve.sta m
  | stx m => exact Laws.OperandBytesResolve.stx m
  | sty m => exact Laws.OperandBytesResolve.sty m
  | tax => exact Laws.OperandBytesResolve.tax
  | tay => exact Laws.OperandBytesResolve.tay
  | tsx => exact Laws.OperandBytesResolve.tsx
  | txa => exact Laws.OperandBytesResolve.txa
  | txs => exact Laws.OperandBytesResolve.txs
  | tya => exact Laws.OperandBytesResolve.tya
  | adc o => exact Laws.OperandBytesResolve.adc o
  | sbc o => exact Laws.OperandBytesResolve.sbc o
  | and o => exact Laws.OperandBytesResolve.and o
  | ora o => exact Laws.OperandBytesResolve.ora o
  | eor o => exact Laws.OperandBytesResolve.eor o
  | bit m => exact Laws.OperandBytesResolve.bit m
  | asl l => exact Laws.OperandBytesResolve.asl l
  | lsr l => exact Laws.OperandBytesResolve.lsr l
  | rol l => exact Laws.OperandBytesResolve.rol l
  | ror l => exact Laws.OperandBytesResolve.ror l
  | inc m => exact Laws.OperandBytesResolve.inc m
  | dec m => exact Laws.OperandBytesResolve.dec m
  | inx => exact Laws.OperandBytesResolve.inx
  | iny => exact Laws.OperandBytesResolve.iny
  | dex => exact Laws.OperandBytesResolve.dex
  | dey => exact Laws.OperandBytesResolve.dey
  | cmp o => exact Laws.OperandBytesResolve.cmp o
  | cpx o => exact Laws.OperandBytesResolve.cpx o
  | cpy o => exact Laws.OperandBytesResolve.cpy o
  | bcc d => exact Laws.OperandBytesResolve.bcc d
  | bcs d => exact Laws.OperandBytesResolve.bcs d
  | beq d => exact Laws.OperandBytesResolve.beq d
  | bne d => exact Laws.OperandBytesResolve.bne d
  | bpl d => exact Laws.OperandBytesResolve.bpl d
  | bmi d => exact Laws.OperandBytesResolve.bmi d
  | bvc d => exact Laws.OperandBytesResolve.bvc d
  | bvs d => exact Laws.OperandBytesResolve.bvs d
  | jmp t => exact Laws.OperandBytesResolve.jmp t
  | jsr w => exact Laws.OperandBytesResolve.jsr w
  | rts => exact Laws.OperandBytesResolve.rts
  | pha => exact Laws.OperandBytesResolve.pha
  | php => exact Laws.OperandBytesResolve.php
  | pla => exact Laws.OperandBytesResolve.pla
  | plp => exact Laws.OperandBytesResolve.plp
  | clc => exact Laws.OperandBytesResolve.clc
  | cld => exact Laws.OperandBytesResolve.cld
  | cli => exact Laws.OperandBytesResolve.cli
  | clv => exact Laws.OperandBytesResolve.clv
  | sec => exact Laws.OperandBytesResolve.sec
  | sed => exact Laws.OperandBytesResolve.sed
  | sei => exact Laws.OperandBytesResolve.sei
  | brk => exact Laws.OperandBytesResolve.brk
  | rti => exact Laws.OperandBytesResolve.rti
  | nop => exact Laws.OperandBytesResolve.nop
  | invalid op => exact Laws.OperandBytesResolve.invalid op

/-! ### Decoding -/

theorem decode_cons_of_resolve {op : Byte} {tail rest : List Byte} {raw : Word}
    (h : resolveBytes (opcodeMap op).2.width tail = some (raw, rest)) : decode (op :: tail) = .decoded (instrOf op raw) rest := by
  simp only [decode, h]

theorem decode_cons_of_short {op : Byte} {tail : List Byte} (h : tail.length < (opcodeMap op).2.width) :
    decode (op :: tail) = .rejected (.missingOperand op) := by
  simp only [decode, (resolveBytes_eq_none_iff _ _).mpr h]

/-- What decodes is an opcode byte, its operand bytes and the rest. -/
theorem decode_eq_decoded {bytes rest : List Byte} {i : Instr} (h : decode bytes = .decoded i rest) :
    ∃ op raw, i = instrOf op raw ∧ bytes = op :: (instrOf op raw).operandBytes ++ rest := by
  cases bytes with
  | nil => cases h
  | cons op tail =>
    cases hr : resolveBytes (opcodeMap op).2.width tail with
    | none => simp [decode, hr] at h
    | some p =>
      obtain ⟨raw, rest'⟩ := p
      obtain ⟨rfl, rfl⟩ := DecodeResult.decoded.inj ((decode_cons_of_resolve hr).symm.trans h)
      exact ⟨op, raw, rfl, by rw [operandBytes_instrOf, List.cons_append, ← eq_rawBytes_append hr]⟩

/-- Settles O1: the opcode byte of a well-formed instruction is mapped back to its mnemonic and mode (`opcode_of_wf`), and its
operand bytes to the raw value it was made of (`operandBytes_resolve`). -/
theorem decodeOfEncodeIsTheInstruction : Obligations.DecodeOfEncodeIsTheInstruction := by
  intro i hwf
  obtain ⟨op, hop, hmap, hown⟩ := opcode_of_wf hwf
  obtain ⟨raw, hresolve, hparts⟩ := operandBytes_resolve i
  have hi : instrOf op raw = i := by simp [instrOf, hmap, hparts op hown]
  refine ⟨op :: i.operandBytes, by simp [encode, hwf, hop], ?length, fun rest => ?decode⟩
  case length =>
    rw [List.length_cons, ← hi, operandBytes_instrOf, length_rawBytes, length_instrOf, Nat.add_comm]
  case decode =>
    rw [List.cons_append, decode_cons_of_resolve (by rw [hmap]; exact hresolve rest), hi]

/-- Settles O2: what decodes is `instrOf` of the first byte, which is well-formed and has that byte as its opcode, and the bytes
that the resolver took are its operand bytes. -/
theorem encodeOfDecodeIsTheBytes : Obligations.EncodeOfDecodeIsTheBytes := by
  intro bytes i rest h
  obtain ⟨op, raw, rfl, hbytes⟩ := decode_eq_decoded h
  exact ⟨wf_instrOf op raw, _, by simp [encode, wf_instrOf, opcode_instrOf], hbytes⟩

/-- Settles O3: the resolver fails exactly on a tail that is too short; otherwise it takes the operand bytes, whose number is the
width, off the tail. -/
theorem lengthIsFixedByTheOpcode : Obligations.LengthIsFixedByTheOpcode := by
  intro op tail
  refine ⟨decode_cons_of_short, fun hle => ?_⟩
  obtain ⟨⟨raw, rest⟩, hr⟩ := Option.ne_none_iff_exists'.mp
    (mt (resolveBytes_eq_none_iff (opcodeMap op).2 tail).mp (Nat.not_lt.mpr hle))
  have hlen := length_rawBytes (opcodeMap op).2 raw
  have htail := eq_rawBytes_append hr
  refine ⟨instrOf op raw, ?_, length_instrOf op raw, ?_⟩
  · rw [decode_cons_of_resolve hr, htail, List.drop_left' hlen]
  · rw [operandBytes_instrOf, htail, List.take_left' hlen]

end Sys2Proof.Machine

/-! PROOFS. Fetch, the step and its report (40_execution_cycle.md R130 to R135, R146, R155; 45_stack_flags_system.md R620;
60_exceptions.md R700, R711), and memory as storage (20_memory.md R73). -/

namespace Sys2Proof.Machine

/-! ### Fetch -/

/-- Settles O6: the three cases of `fetch_cases`, each under its own width. -/
theorem fetchAndResolve : Obligations.FetchAndResolve := by
  intro s
  rw [fetch_opcode]
  obtain ⟨hw, hraw, hafter⟩ | ⟨hw, hraw, hafter⟩ | ⟨hw, hraw, hafter⟩ := fetch_cases s
  · exact ⟨rfl, fun _ => ⟨hraw, hafter⟩, fun h => by omega, fun h => by omega⟩
  · exact ⟨rfl, fun h => by omega, fun _ => ⟨by rw [hraw, toNat_zext], hafter⟩, fun h => by omega⟩
  · exact ⟨rfl, fun h => by omega, fun h => by omega, fun _ => ⟨by rw [hraw, toNat_join], hafter⟩⟩

/-- The bytes at PC decode to the instruction that is fetched (R130). -/
theorem fetch_instr_of_decode {s : State} {i : Instr} {rest : List Byte}
    (h : decode [s.read s.pc, s.read (s.pc + 1#16), s.read (s.pc + 2#16)] = .decoded i rest) : s.fetch.instr = i := by
  have hresolve : ∃ rest', resolveBytes (opcodeMap (s.read s.pc)).2.width [s.read (s.pc + 1#16), s.read (s.pc + 2#16)] =
      some (s.fetch.raw, rest') := by
    obtain ⟨hw, hraw, -⟩ | ⟨hw, hraw, -⟩ | ⟨hw, hraw, -⟩ := fetch_cases s <;> rw [hw, hraw] <;> exact ⟨_, rfl⟩
  obtain ⟨rest', hr⟩ := hresolve
  exact (DecodeResult.decoded.inj ((decode_cons_of_resolve hr).symm.trans h)).1

/-- Settles O7: the bytes decode to the fetched instruction, whose meaning starts from the state that `fetch_after` names. -/
theorem stepRunsTheDecodedInstruction : Obligations.StepRunsTheDecodedInstruction := by
  intro s i rest h
  rw [step, fetch_after, fetch_instr_of_decode h]

/-- The fetched instruction has the mnemonic and the mode of the opcode map. -/
theorem fetch_instr_spec (s : State) :
    s.fetch.instr.mnemonic = (opcodeMap (s.read s.pc)).1 ∧ s.fetch.instr.mode = (opcodeMap (s.read s.pc)).2 :=
  instrOf_spec _ _

theorem report_illegal_iff (s : State) : (report s).illegal = true ↔ (opcodeMap (s.read s.pc)).1 = .invalid :=
  beq_iff_eq

/-- Settles O8: the fields of `report` are those of the fetch, and the fetched instruction's are those of the opcode map. -/
theorem stepReportFields : Obligations.StepReportFields := by
  intro s
  obtain ⟨hmn, hmode⟩ := fetch_instr_spec s
  exact ⟨rfl, rfl, rfl, rfl, hmn.symm, hmode.symm, report_illegal_iff s⟩

/-! ### The two events of a step -/

theorem report_illegal_iff_mem (s : State) : (report s).illegal = true ↔ s.read s.pc ∈ invalidOpcodes :=
  (report_illegal_iff s).trans (opcodeMap_eq_invalid_iff _)

theorem eq_brk_of_mnemonic {i : Instr} (h : i.mnemonic = .brk) : i = .brk := by
  cases i
  case brk => rfl
  all_goals cases h

/-- 0x00 is the one opcode of BRK (R110). -/
theorem fetch_instr_eq_brk_iff (s : State) : s.fetch.instr = .brk ↔ s.read s.pc = 0x00#8 := by
  have hmap : ∀ op : Byte, (opcodeMap op).1 = .brk ↔ op = 0x00#8 := by decide
  rw [← hmap, ← (fetch_instr_spec s).1]
  exact ⟨congrArg Instr.mnemonic, eq_brk_of_mnemonic⟩

/-- Settles O45: each event by its own bytes, and 0x00 is not among the 105. -/
theorem atMostOneEventPerStep : Obligations.AtMostOneEventPerStep := by
  intro s
  refine ⟨report_illegal_iff_mem s, fetch_instr_eq_brk_iff s, fun ⟨hillegal, hbrk⟩ => ?_⟩
  have hmem := (report_illegal_iff_mem s).mp hillegal
  rw [(fetch_instr_eq_brk_iff s).mp hbrk] at hmem
  exact absurd hmem (by decide)

/-- A step at an undefined opcode moves PC one byte on (R620). -/
theorem step_of_mem_invalidOpcodes {s : State} (h : s.read s.pc ∈ invalidOpcodes) :
    step s = .next { s with pc := s.pc + 1#16 } := by
  have hmap := opcodeMap_of_mem_invalidOpcodes h
  obtain ⟨hmn, -⟩ := fetch_instr_spec s
  obtain ⟨op, hop⟩ := eq_invalid_of_mnemonic (hmn.trans (congrArg Prod.fst hmap))
  rw [step, fetch_after, fetch_length, hop, hmap]
  rfl

/-- Settles O44: the handler answers its own state; the mode of the byte has width 0, so the raw value is 0 and PC moves by 1. -/
theorem invalidOpcodeIsReportedAndSkipped : Obligations.InvalidOpcodeIsReportedAndSkipped := by
  refine ⟨fun _ _ => rfl, fun s h => ⟨step_of_mem_invalidOpcodes h, ?report⟩⟩
  have hmap := opcodeMap_of_mem_invalidOpcodes h
  have hraw : s.fetch.raw = 0x0000#16 := by
    obtain ⟨-, hraw, -⟩ | ⟨hw, -, -⟩ | ⟨hw, -, -⟩ := fetch_cases s
    · exact hraw
    · exact absurd hw (by rw [hmap]; decide)
    · exact absurd hw (by rw [hmap]; decide)
  simp only [report, fetch_opcode, hraw, hmap]
  rfl

/-! ### Every step completes -/

theorem step_next (s : State) : ∃ t, step s = .next t := exec_next _ _

theorem run_succ {n : Nat} {s t : State} (h : step s = .next t) : Host.Core.run core (n + 1) s = Host.Core.run core n t := by
  have hcore : core.step s = .next t := h
  simp only [Host.Core.run, hcore]

/-- Settles O10: by induction on the number of steps, each of which answers a next state. -/
theorem everyRunCompletes : Obligations.EveryRunCompletes := by
  intro n
  induction n with
  | zero => exact fun s => ⟨s, rfl⟩
  | succ n ih =>
    intro s
    obtain ⟨t, ht⟩ := step_next s
    rw [run_succ ht]
    exact ih t

/-! ### PC after a step -/

/-- The instructions that set PC themselves (R155). -/
def pcWriters : List Mnemonic := [.bcc, .bcs, .beq, .bne, .bpl, .bmi, .bvc, .bvs, .jmp, .jsr, .rts, .rti, .brk]

/-- Any other handler leaves PC past the instruction. -/
theorem exec_keeps_pc {i : Instr} {s t : State} (h : exec i s = .next t) (hi : i.mnemonic ∉ pcWriters) : t.pc = s.pc := by
  cases i with
  | bcc | bcs | beq | bne | bpl | bmi | bvc | bvs | jmp | jsr | rts | rti | brk =>
    exact absurd (by simp [pcWriters, Instr.mnemonic]) hi
  | asl l | lsr l | rol l | ror l =>
    cases h
    obtain ⟨-, -, -, -, hpc⟩ := shiftAt_shifts _ l s
    exact hpc
  | _ =>
    cases h
    rfl

theorem branchIf_pc (c : Bool) (d : Byte) (s : State) : (branchIf c d s).pc = if c then s.pc + sext d else s.pc := by
  cases c <;> rfl

theorem branchIf_not_pc (c : Bool) (d : Byte) (s : State) :
    (branchIf (!c) d s).pc = if c then s.pc else s.pc + sext d := by
  cases c <;> rfl

/-- SP going up by three, as RTI does it (R616). -/
theorem add_two_add_one (sp : Byte) : sp + 2#8 + 1#8 = sp + 3#8 := by
  bv_omega

theorem returnFromBreak_pc (s : State) :
    s.returnFromBreak.pc = joinBytes (s.read (stackAddr (s.sp + 3#8))) (s.read (stackAddr (s.sp + 2#8))) := by
  simp only [State.returnFromBreak, jump_pc, popWord_value, popStatus_sp, read_popStatus, add_one_add_one,
    add_two_add_one]

/-- The PC of a step is that of the meaning of its instruction, from past that instruction. -/
theorem step_pc {s t u : State} {i : Instr} (ht : step s = .next t) (hi : s.fetch.instr = i)
    (hu : exec i { s with pc := s.pc + BitVec.ofNat 16 i.length } = .next u) : t.pc = u.pc := by
  rw [step, fetch_after, hi, hu] at ht
  cases ht
  rfl

/-- Settles O9: outside the thirteen writers PC stays where the fetch left it, past the instruction; the others go where their
meaning says, a branch from two bytes past its address. -/
theorem pcAfterEachInstruction : Obligations.PCAfterEachInstruction := by
  intro s
  obtain ⟨t, ht⟩ := step_next s
  have hother : s.fetch.instr.mnemonic ∉ pcWriters → t.pc = s.pc + BitVec.ofNat 16 s.fetch.instr.length := fun hi => by
    rw [exec_keeps_pc ht hi, fetch_after]
  refine ⟨t, ht, hother, fun hi => ?invalid, fun d h => ?bcc, fun d h => ?bcs, fun d h => ?beq, fun d h => ?bne,
    fun d h => ?bpl, fun d h => ?bmi, fun d h => ?bvc, fun d h => ?bvs, fun w h => ?jmpAbsolute, fun w h => ?jmpIndirect,
    fun w h => ?jsr, fun h => ?rts, fun h => ?rti, fun h => ?brk⟩
  case invalid =>
    obtain ⟨op, hop⟩ := eq_invalid_of_mnemonic hi
    exact step_pc ht hop rfl
  case bcc => exact (step_pc ht h rfl).trans (branchIf_not_pc _ d _)
  case bcs => exact (step_pc ht h rfl).trans (branchIf_pc _ d _)
  case beq => exact (step_pc ht h rfl).trans (branchIf_pc _ d _)
  case bne => exact (step_pc ht h rfl).trans (branchIf_not_pc _ d _)
  case bpl => exact (step_pc ht h rfl).trans (branchIf_not_pc _ d _)
  case bmi => exact (step_pc ht h rfl).trans (branchIf_pc _ d _)
  case bvc => exact (step_pc ht h rfl).trans (branchIf_not_pc _ d _)
  case bvs => exact (step_pc ht h rfl).trans (branchIf_pc _ d _)
  case jmpAbsolute => exact step_pc ht h rfl
  case jmpIndirect => exact step_pc ht h rfl
  case jsr => exact step_pc ht h rfl
  case rts =>
    rw [step_pc ht h rfl, jump_pc, popWord_value, add_one_add_one]
    rfl
  case rti => exact (step_pc ht h rfl).trans (returnFromBreak_pc _)
  case brk =>
    rw [step_pc ht h rfl, takeBreak_eq]
    rfl

/-! ### Addresses and storage -/

/-- Settles O12: the pointer of page 0 as a number, plus Y modulo 65536. -/
theorem indirectYAddress : Obligations.IndirectYAddress := by
  intro s b
  rw [effectiveAddr, toNat_add_zext, toNat_zeroPagePointer]

/-- Settles O13: a read after a write, and the registers that a write leaves alone. -/
theorem memoryIsPlainStorage : Obligations.MemoryIsPlainStorage := fun s addr other v =>
  ⟨read_write s addr other v, rfl, fun r _ => reg_write s addr v r, write_pc s addr v⟩

end Sys2Proof.Machine

/-! PROOFS. Add and subtract as exact sums (42_arithmetic_logic.md R300 to R302), the logical operations (R303 to R305), TXS
(41_load_store_transfer.md R211) and what rotates undo (43_shift_incdec.md R403, R404). -/

namespace Sys2Proof.Machine

/-! ### Copies -/

/-- Settles O18: the two clauses of `HasRows` by computation over the opcode bytes, and on this core TXS is a copy of X to SP. -/
theorem transferXToStackPointer : Obligations.TransferXToStackPointer :=
  ⟨⟨by decide, by decide⟩, rfl, fun s => ⟨exec_setsRegNZ (congrArg Host.Outcome.next (transferToSP_eq s)), rfl⟩⟩

/-- Settles O23: the two clauses of each `HasRows` by computation over the opcode bytes, and each operation is a copy of its
result to A. -/
theorem logicalOperations : Obligations.LogicalOperations := by
  refine ⟨⟨by decide, by decide⟩, ⟨by decide, by decide⟩, ⟨by decide, by decide⟩, fun o s => ⟨?and, ?ora, ?eor⟩⟩
  case and => exact exec_setsRegNZ rfl
  case ora => exact exec_setsRegNZ rfl
  case eor => exact exec_setsRegNZ rfl

/-! ### The exact sum -/

theorem binaryAdc_exact (a m : Byte) (c : Bool) :
    (binaryAdc a m c).value.toNat + 256 * (binaryAdc a m c).c.toNat = a.toNat + m.toNat + c.toNat := by
  have := a.isLt
  have := m.isLt
  have := c.toNat_le
  simp only [binaryAdc, BitVec.toNat_ofNat]
  by_cases h : a.toNat + m.toNat + c.toNat > 0xFF <;> simp [h] <;> omega

/-- V is 1 where the sign of the result differs from the sign that both operands have (R300). -/
theorem binaryAdc_v (a m : Byte) (c : Bool) :
    (binaryAdc a m c).v = ((a.msb ^^ (binaryAdc a m c).value.msb) && (m.msb ^^ (binaryAdc a m c).value.msb)) := by
  have hsign : ∀ x : Byte, ((x &&& 0x80#8) != 0x00#8) = x.msb := by decide
  simp only [binaryAdc, hsign, BitVec.msb_and, BitVec.msb_xor]

/-- V is exactly the signed overflow, and without it A is the exact signed sum: by the signs of the operands and the result, where the
unsigned sum fixes the rest. -/
theorem binaryAdc_signed (a m : Byte) (c : Bool) :
    let r := binaryAdc a m c
    let signed := a.toInt + m.toInt + c.toNat
    (r.v = true ↔ signed < -128 ∨ 127 < signed) ∧ (r.v = false → r.value.toInt = signed) := by
  intro r signed
  have hsum : r.value.toNat + 256 * r.c.toNat = a.toNat + m.toNat + c.toNat := binaryAdc_exact a m c
  have hv : r.v = ((a.msb ^^ r.value.msb) && (m.msb ^^ r.value.msb)) := binaryAdc_v a m c
  have hcarry := r.c.toNat_le
  have hin := c.toNat_le
  have ha := a.isLt
  have hm := m.isLt
  have hr := r.value.isLt
  have hcond : ∀ x : Byte, (x.msb = true ∧ 128 ≤ x.toNat ∧ x.toInt = x.toNat - 256) ∨
      (x.msb = false ∧ x.toNat < 128 ∧ x.toInt = x.toNat) := by decide
  rw [hv]
  obtain ⟨ea, ha', ia⟩ | ⟨ea, ha', ia⟩ := hcond a <;> obtain ⟨em, hm', im⟩ | ⟨em, hm', im⟩ := hcond m <;>
    obtain ⟨er, hr', ir⟩ | ⟨er, hr', ir⟩ := hcond r.value <;>
    simp only [ea, em, er, signed, ia, im, ir] <;> simp <;> omega

/-- Settles O21: ADC puts `binaryAdc` into A and P, whose carry makes the unsigned sum exact and whose V the signed one. -/
theorem binaryAddIsExact : Obligations.BinaryAddIsExact := by
  intro o s hD
  obtain ⟨t, ht, ha, -, hV, -, hC, -⟩ := exec_setsArith (exec_adc o s)
  rw [hD] at ha hV hC
  refine ⟨t, ht, ?_⟩
  simp only [ha, hV, hC]
  exact ⟨binaryAdc_exact _ _ _, binaryAdc_signed _ _ _⟩

/-- SBC as the exact difference, unsigned and signed: the complement of m is 255 - m unsigned and -m - 1 signed (R302). -/
theorem binaryAdc_complement (a m : Byte) (c : Bool) :
    let r := binaryAdc a (0xFF#8 ^^^ m) c
    let borrow := 1 - c.toNat
    let signed := a.toInt - m.toInt - borrow
    (r.c = true ↔ m.toNat + borrow ≤ a.toNat) ∧ r.value.toNat + m.toNat + borrow = a.toNat + (if r.c then 0 else 256) ∧
      (r.v = true ↔ signed < -128 ∨ 127 < signed) ∧ (r.v = false → r.value.toInt = signed) := by
  intro r borrow signed
  have hcomplement : ∀ m : Byte, (0xFF#8 ^^^ m).toNat = 255 - m.toNat ∧ (0xFF#8 ^^^ m).toInt = -m.toInt - 1 := by decide
  obtain ⟨hnat, hint⟩ := hcomplement m
  have hsum : r.value.toNat + 256 * r.c.toNat = a.toNat + (255 - m.toNat) + c.toNat :=
    hnat ▸ binaryAdc_exact a (0xFF#8 ^^^ m) c
  have hm := m.isLt
  have hr := r.value.isLt
  have hin := c.toNat_le
  have hsigned : a.toInt + (0xFF#8 ^^^ m).toInt + c.toNat = signed := by omega
  refine ⟨?carry, ?unsigned, hsigned ▸ binaryAdc_signed a (0xFF#8 ^^^ m) c⟩
  case carry => cases hc : r.c <;> simp [hc] at hsum ⊢ <;> omega
  case unsigned => cases hc : r.c <;> simp [hc] at hsum ⊢ <;> omega

/-- Settles O22: SBC puts `binaryAdc` of the complement into A and P, which is the exact difference. -/
theorem binarySubtractIsExact : Obligations.BinarySubtractIsExact := by
  intro o s hD
  obtain ⟨t, ht, ha, -, hV, -, hC, -⟩ := exec_setsArith (exec_sbc o s)
  rw [hD] at ha hV hC
  refine ⟨t, ht, ?_⟩
  simp only [ha, hV, hC]
  exact binaryAdc_complement _ _ _

/-! ### Rotates -/

/-- A and C after a rotate, from A and C before it. -/
def rotatePair (f : Byte → Bool → ShiftResult) (ac : Byte × Bool) : Byte × Bool := ((f ac.1 ac.2).value, (f ac.1 ac.2).carry)

/-- A shift of the accumulator gives A and C by its byte function alone. -/
theorem shiftAt_accumulator (f : Byte → Bool → ShiftResult) (s : State) :
    ((shiftAt f .accumulator s).a, (shiftAt f .accumulator s).flag .C) = rotatePair f (s.a, s.flag .C) := by
  obtain ⟨⟨ha, -⟩, hC, -⟩ := shiftAt_shifts f .accumulator s
  exact Prod.ext ha hC

/-- ROLs of the accumulator one after the other iterate `rotatePair`. -/
theorem execSeq_replicate_rol (n : Nat) (s : State) :
    ∃ t, execSeq (List.replicate n (.rol .accumulator)) s = .next t ∧
      (t.a, t.flag .C) = (rotatePair rolByte)^[n] (s.a, s.flag .C) := by
  induction n generalizing s with
  | zero => exact ⟨s, rfl, rfl⟩
  | succ n ih =>
    obtain ⟨t, ht, hac⟩ := ih (shiftAt rolByte .accumulator s)
    exact ⟨t, ht, by rw [hac, shiftAt_accumulator, Function.iterate_succ_apply]⟩

/-- ROL turns the nine bits of A and C by one place (R403). -/
theorem rotatePair_rol_nine (a : Byte) (c : Bool) : (rotatePair rolByte)^[9] (a, c) = (a, c) := by
  revert a c
  decide

theorem rotatePair_ror_rol (a : Byte) (c : Bool) : rotatePair rorByte (rotatePair rolByte (a, c)) = (a, c) := by
  revert a c
  decide

/-- Settles O26: both sequences act on A and C alone as `rotatePair`, where they are the identity. -/
theorem rotatesAreInvertible : Obligations.RotatesAreInvertible := by
  intro s
  refine ⟨?nine, ?undo⟩
  case nine =>
    obtain ⟨t, ht, hac⟩ := execSeq_replicate_rol 9 s
    exact ⟨t, ht, Prod.ext_iff.mp (hac.trans (rotatePair_rol_nine _ _))⟩
  case undo =>
    have hac := (shiftAt_accumulator rorByte (shiftAt rolByte .accumulator s)).trans
      (congrArg (rotatePair rorByte) (shiftAt_accumulator rolByte s))
    exact ⟨_, rfl, Prod.ext_iff.mp (hac.trans (rotatePair_ror_rol _ _))⟩

end Sys2Proof.Machine

/-! PROOFS. Pulls, BRK and RTI (45_stack_flags_system.md R603, R604, R615, R616; 60_exceptions.md R712, R713), what each pull and
return undoes, and stores seen by the fetch (20_memory.md R83). -/

namespace Sys2Proof.Machine

/-! ### Frames of sequences -/

theorem keepsRegs_trans {changed : List Reg} {s t u : State} (hst : KeepsRegsBut changed s t) (htu : KeepsRegsBut changed t u) :
    KeepsRegsBut changed s u := fun r hr => (htu r hr).trans (hst r hr)

/-- Where SP comes back, a frame that leaves SP out is a frame of every register. -/
theorem keepsRegs_of_sp {s t : State} (h : KeepsRegsBut [.SP] s t) (hsp : t.sp = s.sp) : KeepsRegsBut [] s t := fun r _ => by
  by_cases hr : r = .SP
  · rw [hr]
    exact hsp
  · exact h r (by simpa using hr)

/-! ### Pulls -/

theorem copyTo_keepsRegs (r : Reg) (v : Byte) (s : State) : KeepsRegsBut [r] s (copyTo r v s) := by
  obtain ⟨-, -, hregs, -, -, -⟩ := copyTo_sets r v s
  exact hregs

theorem pla_keepsRegs (s : State) : KeepsRegsBut [.A, .SP] s (copyTo .A s.pop.1 s.pop.2) := fun r hr => by
  obtain ⟨hA, hSP⟩ : r ≠ .A ∧ r ≠ .SP := by simpa using hr
  exact (copyTo_keepsRegs .A _ _ r (by simpa using hA)).trans (pop_keepsRegs s r (by simpa using hSP))

/-- Settles O36: the two clauses of `HasRows` by computation over the opcode bytes; PLA is a pop, which changes SP alone, and a
copy of the byte to A. -/
theorem pullAccumulator : Obligations.PullAccumulator := by
  refine ⟨⟨by decide, by decide⟩, fun s => ?_⟩
  obtain ⟨ha, hnz, -, hflags, hmem, hpc⟩ := copyTo_sets .A s.pop.1 s.pop.2
  exact ⟨_, rfl, ha, hnz, rfl, pla_keepsRegs s, hflags, hmem, hpc⟩

theorem popStatus_status (s : State) :
    s.popStatus.status = (s.read (stackAddr (s.sp + 1#8)) &&& 0xCF#8) ||| (s.status &&& 0x10#8) ||| 0x20#8 :=
  visible_restored _ _

/-- PLP and RTI leave U and B as read (R50). -/
theorem popStatus_keepsFlags (s : State) : KeepsFlagsBut [.N, .V, .D, .I, .Z, .C] s s.popStatus := fun f hf => by
  rw [flag_popStatus]
  cases f
  case U => exact (flag_U s).symm
  case B => rfl
  all_goals exact absurd (by decide) hf

theorem popStatus_keepsRegs (s : State) : KeepsRegsBut [.SP] s s.popStatus := fun r hr =>
  (reg_withStatus s.pop.2 _ r).trans (pop_keepsRegs s r hr)

/-- Settles O37: the two clauses of `HasRows` by computation over the opcode bytes, and PLP is `popStatus`. -/
theorem pullStatus : Obligations.PullStatus := by
  refine ⟨⟨by decide, by decide⟩, fun s => ⟨s.popStatus, rfl, popStatus_status s, fun f hf => ?flags, popStatus_keepsFlags s, rfl,
    popStatus_keepsRegs s, fun addr _ => read_popStatus s addr, rfl⟩⟩
  case flags =>
    obtain ⟨hU, hB⟩ : f ≠ .U ∧ f ≠ .B := ⟨fun h => by simp [h] at hf, fun h => by simp [h] at hf⟩
    rw [flag_popStatus, if_neg hU, if_neg hB]

/-! ### A pull after a push -/

theorem sub_one_add_one (sp : Byte) : sp - 1#8 + 1#8 = sp := BitVec.sub_add_cancel sp 1#8

/-- The byte on top of the stack after a push. -/
theorem read_top_push (s : State) (v : Byte) : (s.push v).read (stackAddr ((s.push v).sp + 1#8)) = v := by
  rw [push_sp, sub_one_add_one, read_push, if_pos rfl]

/-- The status byte that was pushed comes back, with the stored B (R49, R50). -/
theorem visible_restored_pushed (p : Byte) : visibleStatus (restoredStatus p (pushedStatus p)) = visibleStatus p :=
  status_ext fun f => by cases f <;> simp

theorem status_popStatus_push (s : State) : (s.push (pushedStatus s.p)).popStatus.status = s.status := by
  rw [State.status, popStatus_p, read_top_push, push_p, visible_restored_pushed]
  rfl

/-- PLA after PHA copies A back to itself. -/
theorem execSeq_pha_pla (s : State) : execSeq [.pha, .pla] s = .next (copyTo .A s.a (s.push s.a).pop.2) :=
  congrArg (fun v => Host.Outcome.next (copyTo .A v (s.push s.a).pop.2)) (read_top_push s s.a)

/-- Settles O38: the byte on top is the pushed one, and SP goes down and up by one. -/
theorem pullUndoesPush : Obligations.PullUndoesPush := by
  intro s
  obtain ⟨ha, hnz, hregs, hflags, -⟩ := copyTo_sets .A s.a (s.push s.a).pop.2
  refine ⟨⟨_, rfl, status_popStatus_push s, ?statusRegs, rfl⟩, ⟨_, execSeq_pha_pla s, fun r _ => ?regs, hnz, hflags, rfl⟩⟩
  case statusRegs =>
    exact keepsRegs_of_sp (keepsRegs_trans (push_keepsRegs s _) (popStatus_keepsRegs _)) (sub_one_add_one s.sp)
  case regs =>
    by_cases hr : r = .A
    · rw [hr]
      exact ha
    · have hsp : KeepsRegsBut [] s (s.push s.a).pop.2 :=
        keepsRegs_of_sp (keepsRegs_trans (push_keepsRegs s _) (pop_keepsRegs _)) (sub_one_add_one s.sp)
      exact (hregs r (by simpa using hr)).trans (hsp r List.not_mem_nil)

/-! ### A return after a call -/

theorem sub_two_add_two (sp : Byte) : sp - 1#8 - 1#8 + 1#8 + 1#8 = sp := by
  bv_omega

theorem popWord_value_jump (s : State) (w : Word) : (s.jump w).popWord.1 = s.popWord.1 := rfl

theorem exec_rts {s : State} {ret : Word} (h : s.popWord.1 = ret) : exec .rts s = .next (s.popWord.2.jump (ret + 1#16)) := by
  rw [← h]
  rfl

/-- RTS after JSR goes back to PC: the popped word is the pushed PC - 1. -/
theorem execSeq_jsr_rts (w : Word) (s : State) :
    execSeq [.jsr w, .rts] s = .next (((s.pushWord (s.pc - 1#16)).jump w).popWord.2.jump s.pc) := by
  have hword : ((s.pushWord (s.pc - 1#16)).jump w).popWord.1 = s.pc - 1#16 :=
    (popWord_value_jump _ w).trans (popWord_pushWord s _)
  have hrts := exec_rts hword
  rw [BitVec.sub_add_cancel] at hrts
  have hjsr : exec (.jsr w) s = .next ((s.pushWord (s.pc - 1#16)).jump w) := rfl
  simp only [execSeq, hjsr, hrts]

/-- Settles O34: RTS jumps back to PC (`execSeq_jsr_rts`), and SP goes down and up by two. -/
theorem returnUndoesCall : Obligations.ReturnUndoesCall := by
  intro w s
  have hcall : KeepsRegsBut [.SP] s ((s.pushWord (s.pc - 1#16)).jump w) := keepsRegs_jump (pushWord_keepsRegs s _) w
  refine ⟨_, execSeq_jsr_rts w s, ?pc, ?regs, fun f _ => ?flags⟩
  case pc => rw [jump_pc]
  case regs =>
    have hreturn := keepsRegs_jump (popWord_keepsRegs ((s.pushWord (s.pc - 1#16)).jump w)) s.pc
    refine keepsRegs_of_sp (keepsRegs_trans hcall hreturn) ?_
    rw [jump_sp, popWord_sp, jump_sp, pushWord_sp, sub_two_add_two]
  case flags => rw [flag_jump, flag_popWord, flag_jump, flag_pushWord]

/-! ### BRK and RTI -/

theorem takeBreak_read (s : State) (ret addr : Word) :
    (s.takeBreak ret).read addr =
      if addr = stackAddr (s.sp - 2#8) then pushedStatus s.p
      else if addr = stackAddr (s.sp - 1#8) then lowByte ret
      else if addr = stackAddr s.sp then highByte ret else s.read addr := by
  rw [State.takeBreak, read_jump, read_withFlag, read_push, read_pushWord, pushWord_sp, sub_one_sub_one]

theorem takeBreak_keepsRegs (s : State) (ret : Word) : KeepsRegsBut [.SP] s (s.takeBreak ret) :=
  keepsRegs_jump (fun r hr => (reg_withFlag _ .I true r).trans
    (keepsRegs_trans (pushWord_keepsRegs s ret) (push_keepsRegs _ _) r hr)) _

theorem takeBreak_keepsFlags (s : State) (ret : Word) : KeepsFlagsBut [.I] s (s.takeBreak ret) := fun f hf => by
  have hI : f ≠ .I := by simpa using hf
  rw [State.takeBreak, flag_jump, flag_withFlag _ _ _ _ (by decide), if_neg hI, flag_push, flag_pushWord]

/-- SP going down by three, as BRK does it (R615). -/
theorem sub_two_sub_one (sp : Byte) : sp - 2#8 - 1#8 = sp - 3#8 := by
  bv_omega

theorem takeBreak_sp (s : State) (ret : Word) : (s.takeBreak ret).sp = s.sp - 3#8 := by
  rw [← sub_two_sub_one, ← sub_one_sub_one]
  rfl

/-- The three slots of a Break differ. -/
theorem stackAddr_slots_ne (sp : Byte) :
    stackAddr sp ≠ stackAddr (sp - 1#8) ∧ stackAddr sp ≠ stackAddr (sp - 2#8) ∧ stackAddr (sp - 1#8) ≠ stackAddr (sp - 2#8) := by
  simp only [ne_eq, stackAddr_inj]
  refine ⟨?_, ?_, ?_⟩ <;> bv_omega

/-- The three bytes that a Break leaves on the stack (R712). -/
theorem takeBreak_slots (s : State) (ret : Word) :
    (s.takeBreak ret).read (stackAddr s.sp) = highByte ret ∧
    (s.takeBreak ret).read (stackAddr (s.sp - 1#8)) = lowByte ret ∧
    (s.takeBreak ret).read (stackAddr (s.sp - 2#8)) = pushedStatus s.p := by
  obtain ⟨h01, h02, h12⟩ := stackAddr_slots_ne s.sp
  simp only [takeBreak_read, if_neg h01, if_neg h02, if_neg h12, if_true, and_self]

/-- Settles O40: the two clauses of `HasRows` by computation over the opcode bytes; BRK is `takeBreak` of PC + 1, which is
pc0 + 2. -/
theorem breakEntersTheHandler : Obligations.BreakEntersTheHandler := by
  refine ⟨⟨by decide, by decide⟩, fun s => ?_⟩
  have hret : s.pc - 1#16 + 2#16 = s.pc + 1#16 := by bv_omega
  obtain ⟨hhigh, hlow, hstatus⟩ := takeBreak_slots s (s.pc + 1#16)
  refine ⟨s.takeBreak (s.pc + 1#16), rfl, ?pc, takeBreak_sp s _, hhigh.trans (congrArg highByte hret.symm),
    hlow.trans (congrArg lowByte hret.symm), hstatus.trans (pushed_eq s.p),
    fun addr h => ?memory, ?I, takeBreak_keepsFlags s _, takeBreak_keepsRegs s _⟩
  case pc =>
    rw [takeBreak_eq]
    rfl
  case memory =>
    obtain ⟨h0, h1, h2⟩ : addr ≠ stackAddr s.sp ∧ addr ≠ stackAddr (s.sp - 1#8) ∧ addr ≠ stackAddr (s.sp - 2#8) := by
      simpa using h
    rw [takeBreak_read, if_neg h2, if_neg h1, if_neg h0]
  case I => exact flag_withFlag _ .I .I true (by decide)

theorem returnFromBreak_keepsRegs (s : State) : KeepsRegsBut [.SP] s s.returnFromBreak :=
  keepsRegs_jump (keepsRegs_trans (popStatus_keepsRegs s) (popWord_keepsRegs _)) _

theorem returnFromBreak_sp (s : State) : s.returnFromBreak.sp = s.sp + 3#8 := by
  rw [← add_two_add_one, ← add_one_add_one]
  rfl

/-- RTI restores the status as PLP does. -/
theorem returnFromBreak_p (s : State) : s.returnFromBreak.p = s.popStatus.p := rfl

/-- Settles O41: the two clauses of `HasRows` by computation over the opcode bytes; RTI is `popStatus`, `popWord` and a jump. -/
theorem returnFromInterrupt : Obligations.ReturnFromInterrupt := by
  refine ⟨⟨by decide, by decide⟩, fun s => ⟨s.returnFromBreak, rfl, ?status, fun f hf => ?flags, returnFromBreak_pc s,
    returnFromBreak_sp s, returnFromBreak_keepsRegs s, fun _ _ => rfl⟩⟩
  case status => exact (congrArg visibleStatus (returnFromBreak_p s)).trans (popStatus_status s)
  case flags => exact (flag_congr (returnFromBreak_p s) f).trans (popStatus_keepsFlags s f hf)

/-- Settles O42: RTI pops the three bytes that BRK left, the status first and then PC + 1, and SP goes down and up by three. -/
theorem returnUndoesBreak : Obligations.ReturnUndoesBreak := by
  intro s
  obtain ⟨hhigh, hlow, hstatus⟩ := takeBreak_slots s (s.pc + 1#16)
  have hsp := takeBreak_sp s (s.pc + 1#16)
  refine ⟨(s.takeBreak (s.pc + 1#16)).returnFromBreak, rfl, ?pc, ?status, ?regs⟩
  case pc =>
    have h3 : s.sp - 3#8 + 3#8 = s.sp := BitVec.sub_add_cancel s.sp 3#8
    have h2 : s.sp - 3#8 + 2#8 = s.sp - 1#8 := by bv_omega
    rw [returnFromBreak_pc, hsp, h3, h2, hhigh, hlow, join_bytes]
  case status =>
    have h1 : s.sp - 3#8 + 1#8 = s.sp - 2#8 := by bv_omega
    have hread : (s.takeBreak (s.pc + 1#16)).read (stackAddr ((s.takeBreak (s.pc + 1#16)).sp + 1#8)) = pushedStatus s.p := by
      rw [hsp, h1, hstatus]
    rw [State.status, returnFromBreak_p, popStatus_p, hread]
    exact status_ext fun f => by cases f <;> simp [takeBreak_eq, State.status]
  case regs =>
    refine keepsRegs_of_sp (keepsRegs_trans (takeBreak_keepsRegs s _) (returnFromBreak_keepsRegs _)) ?_
    rw [returnFromBreak_sp, hsp, BitVec.sub_add_cancel]

/-! ### Stores and the fetch -/

/-- Settles O52: the store puts A at the address, and the fetch there reads it. -/
theorem storeIsSeenByFetch : Obligations.StoreIsSeenByFetch := by
  intro m s
  obtain ⟨t, ht, hread, -⟩ := exec_storesByte (i := .sta m) (s := s) .A rfl
  have hop : (t.jump (effectiveAddr s m)).fetch.opcode = s.a := hread
  exact ⟨t, ht, hop, hop ▸ (fetch_instr_spec _).1⟩

end Sys2Proof.Machine

/-! PROOFS. What the whole machine keeps (10_state.md R30, R41 to R48): who writes a flag and a register, U and B, and the invariant
in every state that the host can reach (70_reset_and_hazards.md R803, R813). -/

namespace Sys2Proof.Machine

/-! ### Who writes a flag -/

/-- A frame whose flags all have the instruction among their writers leaves any other flag alone. -/
theorem flag_of_keepsFlags {i : Instr} {changed : List Flag} {s t : State} {f : Flag} (hf : i.mnemonic ∉ flagWriters f)
    (hkeep : KeepsFlagsBut changed s t) (hwrites : (changed.all fun g => (flagWriters g).contains i.mnemonic) = true) :
    t.flag f = s.flag f := by
  simp only [List.all_eq_true, List.contains_iff_mem] at hwrites
  exact hkeep f fun hmem => hf (hwrites f hmem)

theorem copyTo_keepsFlags (r : Reg) (v : Byte) (s : State) : KeepsFlagsBut [.N, .Z] s (copyTo r v s) := by
  obtain ⟨-, -, -, hflags, -, -⟩ := copyTo_sets r v s
  exact hflags

theorem withArith_keepsFlags (s : State) (r : ArithResult) : KeepsFlagsBut [.N, .V, .Z, .C] s (withArith s r) := by
  obtain ⟨-, -, -, -, -, -, hflags, -, -⟩ := withArith_sets s r
  exact hflags

theorem shiftAt_keepsFlags (f : Byte → Bool → ShiftResult) (l : Location) (s : State) :
    KeepsFlagsBut [.C, .N, .Z] s (shiftAt f l s) := by
  obtain ⟨-, -, -, hflags, -⟩ := shiftAt_shifts f l s
  exact hflags

theorem stepCell_keepsFlags (f : Byte → Byte) (m : MemOperand) (s : State) : KeepsFlagsBut [.N, .Z] s (stepCell f m s) := by
  obtain ⟨-, -, -, -, hflags, -⟩ := stepCell_steps f m s
  exact hflags

theorem compareWith_keepsFlags (r : Reg) (o : ReadOperand) (s : State) : KeepsFlagsBut [.C, .Z, .N] s (compareWith r o s) := by
  obtain ⟨-, -, -, -, hflags, -, -⟩ := compareWith_compares r o s
  exact hflags

theorem withFlag_keepsFlags (s : State) {f : Flag} (h : f ≠ .U) (b : Bool) : KeepsFlagsBut [f] s (s.withFlag f b) := by
  obtain ⟨-, hflags, -⟩ := withFlag_sets s h b
  exact hflags

theorem branchIf_p (c : Bool) (d : Byte) (s : State) : (branchIf c d s).p = s.p := by
  cases c <;> rfl

/-- Settles O46: each instruction's frame, by the shape of its meaning, leaves out only flags it is listed as a writer of. -/
theorem onlyTheListedInstructionsWriteAFlag : Obligations.OnlyTheListedInstructionsWriteAFlag := by
  intro i s t f h hf
  cases i with
  | lda | ldx | ldy | tax | tay | tsx | txa | txs | tya | pla | and | ora | eor | inx | iny | dex | dey =>
    cases h
    exact flag_of_keepsFlags hf (copyTo_keepsFlags _ _ _) rfl
  | adc | sbc =>
    cases h
    exact flag_of_keepsFlags hf (withArith_keepsFlags _ _) rfl
  | bit m =>
    cases h
    exact flag_of_keepsFlags hf (bitStatus_keepsFlags _ _) rfl
  | asl | lsr | rol | ror =>
    cases h
    exact flag_of_keepsFlags hf (shiftAt_keepsFlags _ _ _) rfl
  | inc | dec =>
    cases h
    exact flag_of_keepsFlags hf (stepCell_keepsFlags _ _ _) rfl
  | cmp | cpx | cpy =>
    cases h
    exact flag_of_keepsFlags hf (compareWith_keepsFlags _ _ _) rfl
  | clc | cld | cli | clv | sec | sed | sei =>
    cases h
    exact flag_of_keepsFlags hf (withFlag_keepsFlags _ (by decide) _) rfl
  | plp | rti =>
    cases h
    exact flag_of_keepsFlags hf (popStatus_keepsFlags s) rfl
  | brk =>
    cases h
    exact flag_of_keepsFlags hf (takeBreak_keepsFlags s _) rfl
  | bcc | bcs | beq | bne | bpl | bmi | bvc | bvs =>
    cases h
    exact flag_congr (branchIf_p _ _ s) f
  | sta | stx | sty | jmp | jsr | rts | pha | php | nop | invalid =>
    cases h
    rfl

/-! ### Who writes a register -/

/-- A frame whose registers all have the instruction among their writers leaves any other register alone. -/
theorem reg_of_keepsRegs {i : Instr} {changed : List Reg} {s t : State} {r : Reg} (hr : i.mnemonic ∉ regWriters r)
    (hkeep : KeepsRegsBut changed s t) (hwrites : (changed.all fun g => (regWriters g).contains i.mnemonic) = true) :
    t.reg r = s.reg r := by
  simp only [List.all_eq_true, List.contains_iff_mem] at hwrites
  exact hkeep r fun hmem => hr (hwrites r hmem)

theorem withArith_keepsRegs (s : State) (r : ArithResult) : KeepsRegsBut [.A] s (withArith s r) := by
  obtain ⟨-, -, -, -, -, hregs, -, -, -⟩ := withArith_sets s r
  exact hregs

/-- A shift of a cell leaves every register, and one of the accumulator all but A. -/
theorem shiftAt_reg (f : Byte → Bool → ShiftResult) (l : Location) (s : State) {r : Reg}
    (h : ¬(r = .A ∧ l.mode = .accumulator)) : (shiftAt f l s).reg r = s.reg r := by
  obtain ⟨hl, -⟩ := shiftAt_shifts f l s
  cases l with
  | accumulator =>
    obtain ⟨-, hregs, -⟩ := hl
    exact hregs r (by simpa [Location.mode] using h)
  | mem m =>
    obtain ⟨-, -, hregs⟩ := hl
    exact hregs r List.not_mem_nil

theorem stepCell_reg (f : Byte → Byte) (m : MemOperand) (s : State) (r : Reg) : (stepCell f m s).reg r = s.reg r := by
  obtain ⟨-, -, -, hregs, -, -⟩ := stepCell_steps f m s
  exact hregs r List.not_mem_nil

theorem branchIf_reg (c : Bool) (d : Byte) (s : State) (r : Reg) : (branchIf c d s).reg r = s.reg r := by
  cases c with
  | false => rfl
  | true => exact reg_jump s _ r

/-- Settles O47: each instruction's frame, by the shape of its meaning, leaves out only registers it is listed as a writer of. -/
theorem onlyTheListedInstructionsWriteARegister : Obligations.OnlyTheListedInstructionsWriteARegister := by
  intro i s t r h hr hacc
  cases i with
  | lda | ldx | ldy | tax | tay | tsx | txa | txs | tya | and | ora | eor | inx | iny | dex | dey =>
    cases h
    exact reg_of_keepsRegs hr (copyTo_keepsRegs _ _ _) rfl
  | pla =>
    cases h
    exact reg_of_keepsRegs hr (pla_keepsRegs s) rfl
  | adc | sbc =>
    cases h
    exact reg_of_keepsRegs hr (withArith_keepsRegs _ _) rfl
  | asl | lsr | rol | ror =>
    cases h
    exact shiftAt_reg _ _ s hacc
  | inc | dec =>
    cases h
    exact stepCell_reg _ _ s r
  | pha | php =>
    cases h
    exact reg_of_keepsRegs hr (push_keepsRegs s _) rfl
  | plp =>
    cases h
    exact reg_of_keepsRegs hr (popStatus_keepsRegs s) rfl
  | jsr =>
    cases h
    exact reg_of_keepsRegs hr (keepsRegs_jump (pushWord_keepsRegs s _) _) rfl
  | rts =>
    cases h
    exact reg_of_keepsRegs hr (keepsRegs_jump (popWord_keepsRegs s) _) rfl
  | brk =>
    cases h
    exact reg_of_keepsRegs hr (takeBreak_keepsRegs s _) rfl
  | rti =>
    cases h
    exact reg_of_keepsRegs hr (returnFromBreak_keepsRegs s) rfl
  | bcc | bcs | beq | bne | bpl | bmi | bvc | bvs =>
    cases h
    exact branchIf_reg _ _ s r
  | sta | stx | sty =>
    cases h
    exact reg_write s _ _ r
  | bit | cmp | cpx | cpy | clc | cld | cli | clv | sec | sed | sei =>
    cases h
    exact reg_withStatus s _ r
  | jmp =>
    cases h
    exact reg_jump s _ r
  | nop | invalid =>
    cases h
    rfl

/-! ### The stored U -/

/-- No meaning clears the stored U: every new P is made from the old one by writing other flags, or restored with U = 1 (R43). -/
theorem exec_keeps_unused {i : Instr} {s t : State} (h : exec i s = .next t) (hU : getFlag s.p .U = true) :
    getFlag t.p .U = true := by
  cases i with
  | lda | ldx | ldy | tax | tay | tsx | txa | txs | tya | pla | and | ora | eor | inx | iny | dex | dey =>
    cases h
    simp [copyTo, transferToSP_eq, hU]
  | adc | sbc =>
    cases h
    simp [withArith, setNVZC, hU]
  | bit =>
    cases h
    simp [getFlag_bitStatus, hU]
  | asl | lsr | rol | ror =>
    cases h
    simp [shiftAt, shiftStatus, hU]
  | inc | dec =>
    cases h
    simp [stepCell, hU]
  | cmp | cpx | cpy =>
    cases h
    simp [compareWith, compareStatus, hU]
  | clc | cld | cli | clv | sec | sed | sei =>
    cases h
    simp [hU]
  | plp | rti =>
    cases h
    exact (getFlag_restored _ _ .U).trans (if_pos rfl)
  | brk =>
    cases h
    simp [takeBreak_eq, hU]
  | bcc | bcs | beq | bne | bpl | bmi | bvc | bvs =>
    cases h
    rw [branchIf_p, hU]
  | sta | stx | sty | jmp | jsr | rts | pha | php | nop | invalid =>
    cases h
    exact hU

theorem fetch_after_p (s : State) : s.fetch.after.p = s.p := by
  rw [fetch_after]

/-- Settles O48: U as read and as pushed by the laws of P, and the stored U by `exec_keeps_unused`. -/
theorem unusedBitReadsOne : Obligations.UnusedBitReadsOne := by
  intro s
  refine ⟨flag_U s, (getFlag_pushed _ _).trans (if_pos (.inl rfl)), fun hU => ?_⟩
  obtain ⟨t, ht⟩ := step_next s
  exact ⟨t, ht, exec_keeps_unused ht (by rw [fetch_after_p, hU])⟩

/-! ### The invariant -/

theorem exec_keeps_inv {i : Instr} {s t : State} (h : exec i s = .next t) (hs : s.Inv) : t.Inv := by
  cases i with
  | lda | ldx | ldy | tax | tay | tsx | txa | txs | tya | and | ora | eor | inx | iny | dex | dey =>
    cases h
    exact inv_copyTo hs _ _
  | pla =>
    cases h
    exact inv_copyTo (inv_pop hs) _ _
  | sta | stx | sty =>
    cases h
    exact inv_storeFrom hs _ _
  | adc | sbc =>
    cases h
    exact inv_withArith hs _
  | bit =>
    cases h
    exact inv_bitStatus hs _ _
  | asl | lsr | rol | ror =>
    cases h
    exact inv_shiftAt hs _ _
  | inc | dec =>
    cases h
    exact inv_stepCell hs _ _
  | cmp | cpx | cpy =>
    cases h
    exact inv_compareWith hs _ _
  | bcc | bcs | beq | bne | bpl | bmi | bvc | bvs =>
    cases h
    exact inv_branchIf hs _ _
  | jmp =>
    cases h
    exact inv_jump hs _
  | jsr =>
    cases h
    exact inv_jump (inv_push (inv_push hs _) _) _
  | rts =>
    cases h
    exact inv_jump (inv_pop (inv_pop hs)) _
  | pha | php =>
    cases h
    exact inv_push hs _
  | plp =>
    cases h
    exact inv_popStatus hs
  | clc | cld | cli | clv | sec | sed | sei =>
    cases h
    exact inv_withFlag hs (by decide) (by decide) _
  | brk =>
    cases h
    exact inv_takeBreak hs _
  | rti =>
    cases h
    exact inv_returnFromBreak hs
  | nop | invalid =>
    cases h
    exact hs

theorem inv_fetch_after {s : State} (h : s.Inv) : s.fetch.after.Inv := by
  rw [fetch_after]
  exact inv_jump h _

/-- Settles O53: the fetch moves PC alone, and each meaning keeps the invariant. -/
theorem stepKeepsInvariant : Obligations.StepKeepsInvariant := fun _ _ hs h => exec_keeps_inv h (inv_fetch_after hs)

/-- Settles O54: memory lists nothing, and P is 0x24. -/
theorem invariantHoldsAtReset : Obligations.InvariantHoldsAtReset := ⟨wf_reset, by decide, by decide⟩

theorem hostCall_keeps_inv {c : HostCall} {s t : State} (h : hostCall c s = .next t) (hs : s.Inv) : t.Inv := by
  cases c with
  | step => exact stepKeepsInvariant s t hs h
  | reset =>
    cases h
    exact inv_resetCore hs.memory
  | write addr v =>
    cases h
    exact inv_write hs addr v
  | setReg r v =>
    cases h
    exact inv_withReg hs r v
  | setPC addr =>
    cases h
    exact inv_jump hs addr
  | setStatus v =>
    cases h
    exact inv_withStatus hs (by simp) (by simp [hs.breakIsZero])

theorem hostCalls_cons {c : HostCall} {cs : List HostCall} {s u : State} (h : hostCalls (c :: cs) s = .next u) :
    ∃ t, hostCall c s = .next t ∧ hostCalls cs t = .next u := by
  unfold hostCalls at h
  split at h
  case h_1 t ht => exact ⟨t, ht, h⟩
  all_goals cases h

theorem hostCalls_keeps_inv {cs : List HostCall} {s t : State} (h : hostCalls cs s = .next t) (hs : s.Inv) : t.Inv := by
  induction cs generalizing s with
  | nil =>
    cases h
    exact hs
  | cons c cs ih =>
    obtain ⟨u, hu, ht⟩ := hostCalls_cons h
    exact ih ht (hostCall_keeps_inv hu hs)

/-- Settles O55: the state after reset over a canonical image meets the invariant, and each call keeps it. -/
theorem everyReachableStateMeetsInvariant : Obligations.EveryReachableStateMeetsInvariant := by
  rintro s ⟨image, himage, calls, h⟩
  have hs : s.Inv := hostCalls_keeps_inv h (inv_resetCore himage)
  exact ⟨hs, by rw [flag_eq, if_neg (by decide), hs.breakIsZero], flag_U s⟩

end Sys2Proof.Machine

/-! PROOFS. The accesses of a step (20_memory.md R72, R76): memory changes by the writes of the list and by nothing else, and only the
reads of the list are seen. -/

namespace Sys2Proof.Machine

/-! ### Writes -/

/-- What accesses make of memory depends on the memory before them alone. -/
theorem foldl_apply_mem_congr (accs : List Access) {s t : State} (h : s.mem = t.mem) :
    (accs.foldl Access.apply s).mem = (accs.foldl Access.apply t).mem := by
  induction accs generalizing s t with
  | nil => exact h
  | cons acc accs ih =>
    refine ih ?_
    cases acc with
    | read addr => exact h
    | write addr v => exact congrArg (fun m => Memory.set m addr.toNat v) h

/-- Accesses without a write change nothing. -/
theorem foldl_apply_of_reads {accs : List Access} (h : ∀ acc ∈ accs, acc.isWrite = false) (s : State) :
    accs.foldl Access.apply s = s := by
  induction accs with
  | nil => rfl
  | cons acc accs ih =>
    obtain ⟨hacc, haccs⟩ := List.forall_mem_cons.mp h
    cases acc with
    | read addr => exact ih haccs
    | write addr v => cases hacc

theorem pointerReads_isWrite (s : State) (m : MemOperand) : ∀ acc ∈ pointerReads s m, acc.isWrite = false := by
  cases m <;> simp [pointerReads, Access.isWrite]

theorem operandAccesses_isWrite (s : State) (o : ReadOperand) : ∀ acc ∈ operandAccesses s o, acc.isWrite = false := by
  cases o with
  | immediate v => simp [operandAccesses]
  | mem m => simpa [operandAccesses, or_imp, forall_and, Access.isWrite] using pointerReads_isWrite s m

theorem fetchAccesses_isWrite (s : State) : ∀ acc ∈ fetchAccesses s, acc.isWrite = false := by
  simp [fetchAccesses, Access.isWrite]

theorem foldl_apply_operandAccesses (s : State) (o : ReadOperand) :
    ((operandAccesses s o).foldl Access.apply s).mem = s.mem :=
  congrArg State.mem (foldl_apply_of_reads (operandAccesses_isWrite s o) s)

theorem foldl_apply_storeAccesses (s : State) (m : MemOperand) (v : Byte) :
    ((storeAccesses s m v).foldl Access.apply s).mem = (s.write (effectiveAddr s m) v).mem := by
  rw [storeAccesses, List.foldl_append, foldl_apply_of_reads (pointerReads_isWrite s m)]
  rfl

theorem foldl_apply_modifyAccesses (s : State) (m : MemOperand) (f : Byte → Byte) :
    ((modifyAccesses s m f).foldl Access.apply s).mem = (s.write (effectiveAddr s m) (f (s.read (effectiveAddr s m)))).mem := by
  rw [modifyAccesses, List.foldl_append, foldl_apply_of_reads (pointerReads_isWrite s m)]
  rfl

theorem shiftAt_mem (f : Byte → Bool → ShiftResult) (l : Location) (s : State) :
    (shiftAt f l s).mem = ((shiftAccesses s f l).foldl Access.apply s).mem := by
  cases l with
  | accumulator => rfl
  | mem m =>
    rw [shiftAccesses, foldl_apply_modifyAccesses]
    rfl

theorem stepCell_mem (f : Byte → Byte) (m : MemOperand) (s : State) :
    (stepCell f m s).mem = ((modifyAccesses s m f).foldl Access.apply s).mem :=
  (foldl_apply_modifyAccesses s m f).symm

theorem branchIf_mem (c : Bool) (d : Byte) (s : State) : (branchIf c d s).mem = s.mem := by
  cases c <;> rfl

/-- A handler changes memory exactly by the writes of its accesses. -/
theorem exec_mem {i : Instr} {s t : State} (h : exec i s = .next t) :
    t.mem = ((handlerAccesses i s).foldl Access.apply s).mem := by
  cases i with
  | lda o | ldx o | ldy o | and o | ora o | eor o | adc o | sbc o | cmp o | cpx o | cpy o =>
    cases h
    exact (foldl_apply_operandAccesses s o).symm
  | bit m =>
    cases h
    exact (foldl_apply_operandAccesses s (.mem m)).symm
  | sta m | stx m | sty m =>
    cases h
    exact (foldl_apply_storeAccesses s m _).symm
  | asl l | lsr l | rol l | ror l =>
    cases h
    exact shiftAt_mem _ l s
  | inc m | dec m =>
    cases h
    exact stepCell_mem _ m s
  | bcc | bcs | beq | bne | bpl | bmi | bvc | bvs =>
    cases h
    exact branchIf_mem _ _ s
  | jmp target =>
    cases h
    cases target <;> rfl
  | brk =>
    cases h
    rw [takeBreak_eq]
    simp [handlerAccesses, Access.apply, ← sub_one_sub_one]
  | jsr | pha | php =>
    cases h
    rfl
  | tax | tay | tsx | txa | txs | tya | inx | iny | dex | dey | rts | pla | plp | clc | cld | cli | clv | sec | sed | sei | rti
  | nop | invalid =>
    cases h
    rfl

/-- Settles O50: the fetch reads only, and the handler starts from the memory of the step. -/
theorem stepWritesExactlyItsAccesses : Obligations.StepWritesExactlyItsAccesses := by
  intro s
  obtain ⟨t, ht⟩ := step_next s
  have hafter : s.fetch.after.mem = s.mem := by rw [fetch_after]
  refine ⟨t, ht, ?_⟩
  rw [stepAccesses, List.foldl_append, foldl_apply_of_reads (fetchAccesses_isWrite s), exec_mem ht]
  exact foldl_apply_mem_congr _ hafter

/-! ### Reads -/

/-- The state with another memory. -/
def State.withMem (s : State) (other : Memory) : State := { s with mem := other }

/-- The two states read alike wherever the accesses read. -/
def AgreeOnReads (accs : List Access) (s t : State) : Prop := ∀ addr, Access.read addr ∈ accs → t.read addr = s.read addr

theorem agreeOnReads_append {accs accs' : List Access} {s t : State} :
    AgreeOnReads (accs ++ accs') s t ↔ AgreeOnReads accs s t ∧ AgreeOnReads accs' s t := by
  simp only [AgreeOnReads, List.mem_append, or_imp, forall_and]

theorem agreeOnReads_read_cons {addr : Word} {accs : List Access} {s t : State} :
    AgreeOnReads (.read addr :: accs) s t ↔ t.read addr = s.read addr ∧ AgreeOnReads accs s t := by
  simp [AgreeOnReads, or_imp, forall_and]

theorem pointerReads_withMem (s : State) (other : Memory) (m : MemOperand) :
    pointerReads (s.withMem other) m = pointerReads s m := by
  cases m <;> rfl

theorem zeroPagePointer_congr {s t : State} {p : Byte} {accs : List Access}
    (h : AgreeOnReads (.read (zext p) :: .read (zext (p + 1#8)) :: accs) s t) : zeroPagePointer t p = zeroPagePointer s p := by
  simp only [agreeOnReads_read_cons] at h
  obtain ⟨hlo, hhi, -⟩ := h
  rw [zeroPagePointer, zeroPagePointer, State.readPair, State.readPair, hlo, hhi]

/-- An effective address depends on memory through its pointer alone (R145, R146). -/
theorem effectiveAddr_withMem {s : State} {other : Memory} {m : MemOperand}
    (h : AgreeOnReads (pointerReads s m) s (s.withMem other)) : effectiveAddr (s.withMem other) m = effectiveAddr s m := by
  cases m with
  | indirectX b => exact zeroPagePointer_congr h
  | indirectY b => exact congrArg (· + zext s.y) (zeroPagePointer_congr h)
  | _ => rfl

theorem operandValue_withMem {s : State} {other : Memory} {o : ReadOperand}
    (h : AgreeOnReads (operandAccesses s o) s (s.withMem other)) : operandValue (s.withMem other) o = operandValue s o := by
  cases o with
  | immediate v => rfl
  | mem m =>
    obtain ⟨hptr, haddr⟩ := agreeOnReads_append.mp h
    rw [operandValue, operandValue, effectiveAddr_withMem hptr]
    exact haddr _ List.mem_cons_self

theorem operandAccesses_withMem {s : State} {other : Memory} {o : ReadOperand}
    (h : AgreeOnReads (operandAccesses s o) s (s.withMem other)) :
    operandAccesses (s.withMem other) o = operandAccesses s o := by
  cases o with
  | immediate v => rfl
  | mem m =>
    obtain ⟨hptr, -⟩ := agreeOnReads_append.mp h
    rw [operandAccesses, operandAccesses, effectiveAddr_withMem hptr, pointerReads_withMem]

theorem storeAccesses_withMem {s : State} {other : Memory} {m : MemOperand} {v : Byte}
    (h : AgreeOnReads (storeAccesses s m v) s (s.withMem other)) :
    storeAccesses (s.withMem other) m v = storeAccesses s m v := by
  obtain ⟨hptr, -⟩ := agreeOnReads_append.mp h
  rw [storeAccesses, storeAccesses, effectiveAddr_withMem hptr, pointerReads_withMem]

/-- A read-modify-write sees the pointer and the cell. -/
theorem modify_withMem {s : State} {other : Memory} {m : MemOperand} {f : Byte → Byte}
    (h : AgreeOnReads (modifyAccesses s m f) s (s.withMem other)) :
    effectiveAddr (s.withMem other) m = effectiveAddr s m ∧
    (s.withMem other).read (effectiveAddr s m) = s.read (effectiveAddr s m) := by
  obtain ⟨hptr, hcell⟩ := agreeOnReads_append.mp h
  exact ⟨effectiveAddr_withMem hptr, hcell _ List.mem_cons_self⟩

theorem modifyAccesses_withMem {s : State} {other : Memory} {m : MemOperand} {f : Byte → Byte}
    (h : AgreeOnReads (modifyAccesses s m f) s (s.withMem other)) :
    modifyAccesses (s.withMem other) m f = modifyAccesses s m f := by
  obtain ⟨haddr, hcell⟩ := modify_withMem h
  simp only [modifyAccesses, haddr, hcell, pointerReads_withMem]

theorem readPair_withMem {s : State} {other : Memory} {lo hi : Word} {accs : List Access}
    (h : AgreeOnReads (.read lo :: .read hi :: accs) s (s.withMem other)) :
    (s.withMem other).readPair lo hi = s.readPair lo hi := by
  simp only [agreeOnReads_read_cons] at h
  obtain ⟨hlo, hhi, -⟩ := h
  rw [State.readPair, State.readPair, hlo, hhi]

/-- The two states differ in memory at most. -/
def SameButMemory (s t : State) : Prop := s.withMem [] = t.withMem []

/-- With the other memory the handler ends with the same registers and makes the same accesses. -/
def SameOver (i : Instr) (s : State) (other : Memory) : Prop :=
  ∃ t u, exec i s = .next t ∧ exec i (s.withMem other) = .next u ∧ SameButMemory t u ∧
    handlerAccesses i (s.withMem other) = handlerAccesses i s

theorem compareWith_withMem {r : Reg} {o : ReadOperand} {s : State} {other : Memory}
    (h : AgreeOnReads (operandAccesses s o) s (s.withMem other)) :
    SameButMemory (compareWith r o s) (compareWith r o (s.withMem other)) := by
  rw [compareWith, compareWith, operandValue_withMem h]
  cases r <;> rfl

theorem shiftAt_withMem {f : Byte → Bool → ShiftResult} {l : Location} {s : State} {other : Memory}
    (h : AgreeOnReads (shiftAccesses s f l) s (s.withMem other)) :
    SameButMemory (shiftAt f l s) (shiftAt f l (s.withMem other)) := by
  cases l with
  | accumulator => rfl
  | mem m =>
    have hmodify : AgreeOnReads (modifyAccesses s m fun v => (f v (s.flag .C)).value) s (s.withMem other) := h
    obtain ⟨haddr, hcell⟩ := modify_withMem hmodify
    simp only [shiftAt, resolveLoc, readLoc, haddr, hcell]
    rfl

theorem shiftAccesses_withMem {f : Byte → Bool → ShiftResult} {l : Location} {s : State} {other : Memory}
    (h : AgreeOnReads (shiftAccesses s f l) s (s.withMem other)) :
    shiftAccesses (s.withMem other) f l = shiftAccesses s f l := by
  cases l with
  | accumulator => rfl
  | mem m =>
    have hmodify : AgreeOnReads (modifyAccesses s m fun v => (f v (s.flag .C)).value) s (s.withMem other) := h
    exact modifyAccesses_withMem hmodify

theorem stepCell_withMem {f : Byte → Byte} {m : MemOperand} {s : State} {other : Memory}
    (h : AgreeOnReads (modifyAccesses s m f) s (s.withMem other)) :
    SameButMemory (stepCell f m s) (stepCell f m (s.withMem other)) := by
  obtain ⟨haddr, hcell⟩ := modify_withMem h
  simp only [stepCell, haddr, hcell]
  rfl

theorem branchIf_withMem (c : Bool) (d : Byte) (s : State) (other : Memory) :
    SameButMemory (branchIf c d s) (branchIf c d (s.withMem other)) := by
  cases c <;> rfl

/-- What RTI does, field by field (R616). -/
theorem returnFromBreak_eq (s : State) :
    s.returnFromBreak =
      { s with
        sp := s.sp + 3#8
        pc := s.readPair (stackAddr (s.sp + 2#8)) (stackAddr (s.sp + 3#8))
        p := restoredStatus s.p (s.read (stackAddr (s.sp + 1#8))) } := by
  rw [← add_two_add_one, ← add_one_add_one]
  rfl

theorem returnFromBreak_withMem {s : State} {other : Memory}
    (h : AgreeOnReads [.read (stackAddr (s.sp + 1#8)), .read (stackAddr (s.sp + 2#8)), .read (stackAddr (s.sp + 3#8))] s
      (s.withMem other)) : SameButMemory s.returnFromBreak (s.withMem other).returnFromBreak := by
  obtain ⟨hstatus, htarget⟩ := agreeOnReads_read_cons.mp h
  rw [returnFromBreak_eq, returnFromBreak_eq]
  exact congrArg₂ (fun w v => ({ s with sp := s.sp + 3#8, pc := w, p := restoredStatus s.p v, mem := [] } : State))
    (readPair_withMem htarget).symm hstatus.symm

theorem takeBreak_withMem {s : State} {ret : Word} {other : Memory}
    (h : AgreeOnReads [.read 0xFFFE#16, .read 0xFFFF#16] s (s.withMem other)) :
    SameButMemory (s.takeBreak ret) ((s.withMem other).takeBreak ret) := by
  rw [takeBreak_eq, takeBreak_eq, readPair_withMem h]
  rfl

theorem popWord_value_eq_readPair (s : State) :
    s.popWord.1 = s.readPair (stackAddr (s.sp + 1#8)) (stackAddr (s.sp + 2#8)) := by
  rw [← add_one_add_one]
  rfl

/-- A handler depends on memory only through the reads of its accesses. -/
theorem exec_withMem {i : Instr} {s : State} {other : Memory}
    (h : AgreeOnReads (handlerAccesses i s) s (s.withMem other)) : SameOver i s other := by
  cases i with
  | lda o | ldx o | ldy o | and o | ora o | eor o | adc o | sbc o =>
    refine ⟨_, _, rfl, rfl, ?_, operandAccesses_withMem h⟩
    rw [operandValue_withMem h]
    rfl
  | cmp o | cpx o | cpy o => exact ⟨_, _, rfl, rfl, compareWith_withMem h, operandAccesses_withMem h⟩
  | bit m =>
    have hvalue : operandValue (s.withMem other) (.mem m) = operandValue s (.mem m) := operandValue_withMem h
    refine ⟨_, _, rfl, rfl, ?_, operandAccesses_withMem (o := .mem m) h⟩
    exact congrArg (fun v => (s.withMem []).withStatus (bitStatus s.p s.a v)) hvalue.symm
  | sta m | stx m | sty m => exact ⟨_, _, rfl, rfl, rfl, storeAccesses_withMem h⟩
  | asl l | lsr l | rol l | ror l => exact ⟨_, _, rfl, rfl, shiftAt_withMem h, shiftAccesses_withMem h⟩
  | inc m =>
    have hmodify : AgreeOnReads (modifyAccesses s m (· + 1#8)) s (s.withMem other) := h
    exact ⟨_, _, rfl, rfl, stepCell_withMem hmodify, modifyAccesses_withMem hmodify⟩
  | dec m =>
    have hmodify : AgreeOnReads (modifyAccesses s m (· - 1#8)) s (s.withMem other) := h
    exact ⟨_, _, rfl, rfl, stepCell_withMem hmodify, modifyAccesses_withMem hmodify⟩
  | bcc d | bcs d | beq d | bne d | bpl d | bmi d | bvc d | bvs d =>
    exact ⟨_, _, rfl, rfl, branchIf_withMem _ d s other, rfl⟩
  | jmp target =>
    cases target with
    | absolute w => exact ⟨_, _, rfl, rfl, rfl, rfl⟩
    | indirect ptr => exact ⟨_, _, rfl, rfl, congrArg (s.withMem []).jump (readPair_withMem h).symm, rfl⟩
  | rts =>
    refine ⟨_, _, rfl, rfl, ?_, rfl⟩
    rw [popWord_value_eq_readPair, popWord_value_eq_readPair]
    exact congrArg (fun w => (s.withMem []).popWord.2.jump (w + 1#16)) (readPair_withMem h).symm
  | pla =>
    exact ⟨_, _, rfl, rfl, congrArg (fun v => copyTo .A v (s.withMem []).pop.2) (h _ List.mem_cons_self).symm, rfl⟩
  | plp =>
    exact ⟨_, _, rfl, rfl,
      congrArg (fun v => (s.withMem []).pop.2.withStatus (restoredStatus s.p v)) (h _ List.mem_cons_self).symm, rfl⟩
  | brk => exact ⟨_, _, rfl, rfl, takeBreak_withMem (agreeOnReads_append (accs := [_, _, _]).mp h).2, rfl⟩
  | rti => exact ⟨_, _, rfl, rfl, returnFromBreak_withMem h, rfl⟩
  | tax | tay | tsx | txa | txs | tya | inx | iny | dex | dey | jsr | pha | php | clc | cld | cli | clv | sec | sed | sei | nop
  | invalid => exact ⟨_, _, rfl, rfl, rfl, rfl⟩

/-- The raw value of a fetch, by the width of the mode, from the two bytes after the opcode (R134). -/
def operandWord (width : Nat) (lo hi : Byte) : Word :=
  match width with
  | 0 => 0x0000#16
  | 1 => zext lo
  | _ + 2 => joinBytes hi lo

theorem fetch_raw (s : State) :
    s.fetch.raw = operandWord (opcodeMap (s.read s.pc)).2.width (s.read (s.pc + 1#16)) (s.read (s.pc + 2#16)) := by
  obtain ⟨hw, hraw, -⟩ | ⟨hw, hraw, -⟩ | ⟨hw, hraw, -⟩ := fetch_cases s <;> rw [hw, hraw] <;> rfl

/-- A fetch sees the bytes of its accesses alone. -/
theorem fetch_withMem {s : State} {other : Memory} (h : AgreeOnReads (fetchAccesses s) s (s.withMem other)) :
    (s.withMem other).fetch.instr = s.fetch.instr ∧ (s.withMem other).fetch.after = s.fetch.after.withMem other ∧
    fetchAccesses (s.withMem other) = fetchAccesses s := by
  have hbyte : ∀ k < 1 + (opcodeMap (s.read s.pc)).2.width,
      (s.withMem other).read (s.pc + BitVec.ofNat 16 k) = s.read (s.pc + BitVec.ofNat 16 k) := fun k hk =>
    h _ (List.mem_map.mpr ⟨k, List.mem_range.mpr hk, rfl⟩)
  have hop : (s.withMem other).read s.pc = s.read s.pc := by simpa using hbyte 0 (by omega)
  have hpc : (s.withMem other).pc = s.pc := rfl
  have hraw : (s.withMem other).fetch.raw = s.fetch.raw := by
    rw [fetch_raw, fetch_raw, hpc, hop]
    rcases width_cases (opcodeMap (s.read s.pc)).2 with hw | hw | hw <;> rw [hw] at hbyte ⊢
    · rfl
    · exact congrArg zext (hbyte 1 (by decide))
    · exact congrArg₂ joinBytes (hbyte 2 (by decide)) (hbyte 1 (by decide))
  have hinstr : (s.withMem other).fetch.instr = s.fetch.instr := congrArg₂ instrOf hop hraw
  refine ⟨hinstr, ?after, ?accesses⟩
  case after =>
    rw [fetch_after, fetch_after, hinstr]
    rfl
  case accesses => rw [fetchAccesses, fetchAccesses, hpc, hop]

theorem read_fetch_after (s : State) (addr : Word) : s.fetch.after.read addr = s.read addr := by
  rw [fetch_after]
  rfl

/-- Settles O51: with the other memory the fetch gives the same instruction and start (`fetch_withMem`), from which the handler does
the same (`exec_withMem`). -/
theorem stepReadsOnlyItsAccesses : Obligations.StepReadsOnlyItsAccesses := by
  intro s other h
  obtain ⟨hfetch, hhandler⟩ := agreeOnReads_append.mp h
  obtain ⟨hinstr, hafter, haccesses⟩ := fetch_withMem hfetch
  have hstart : AgreeOnReads (handlerAccesses s.fetch.instr s.fetch.after) s.fetch.after (s.fetch.after.withMem other) :=
    fun addr hmem => (hhandler addr hmem).trans (read_fetch_after s addr).symm
  obtain ⟨t, u, ht, hu, hsame, hacc⟩ := exec_withMem hstart
  rw [← hinstr, ← hafter] at hu
  refine ⟨t, u, ht, hu, hsame, congrArg₂ (· ++ ·) haccesses ?_⟩
  change handlerAccesses (s.withMem other).fetch.instr (s.withMem other).fetch.after = _
  rw [hinstr, hafter, hacc]

end Sys2Proof.Machine

/-! PROOFS. The stored B (10_state.md R44): a state and the same state with another B run alike. -/

namespace Sys2Proof.Machine

/-! ### P with another B -/

/-- Writing another flag and writing B commute. -/
theorem setFlag_setFlag_B {f : Flag} (h : f ≠ .B) (p : Byte) (b c : Bool) :
    setFlag (setFlag p .B b) f c = setFlag (setFlag p f c) .B b :=
  status_ext fun g => by
    simp only [getFlag_setFlag]
    by_cases hg : g = f
    · simp [hg, h]
    · simp [hg]

theorem setNZ_setFlag_B (p v : Byte) (b : Bool) : setNZ (setFlag p .B b) v = setFlag (setNZ p v) .B b := by
  simp (disch := decide) only [setNZ, setFlag_setFlag_B]

theorem setNVZC_setFlag_B (p : Byte) (r : ArithResult) (b : Bool) : setNVZC (setFlag p .B b) r = setFlag (setNVZC p r) .B b := by
  simp (disch := decide) only [setNVZC, setFlag_setFlag_B]

theorem compareStatus_setFlag_B (p reg m : Byte) (b : Bool) :
    compareStatus (setFlag p .B b) reg m = setFlag (compareStatus p reg m) .B b := by
  simp (disch := decide) only [compareStatus, setFlag_setFlag_B]

theorem bitStatus_setFlag_B (p a m : Byte) (b : Bool) : bitStatus (setFlag p .B b) a m = setFlag (bitStatus p a m) .B b := by
  simp (disch := decide) only [bitStatus, setFlag_setFlag_B]

theorem shiftStatus_setFlag_B (p : Byte) (r : ShiftResult) (b : Bool) :
    shiftStatus (setFlag p .B b) r = setFlag (shiftStatus p r) .B b := by
  simp (disch := decide) only [shiftStatus, setFlag_setFlag_B, setNZ_setFlag_B]

/-- The pushed copy has B = 1 whatever is stored (R49). -/
theorem pushedStatus_setFlag_B (p : Byte) (b : Bool) : pushedStatus (setFlag p .B b) = pushedStatus p :=
  status_ext fun f => by cases f <;> simp

/-- A restore keeps the stored B (R50). -/
theorem restoredStatus_setFlag_B (p v : Byte) (b : Bool) :
    restoredStatus (setFlag p .B b) v = setFlag (restoredStatus p v) .B b :=
  status_ext fun f => by cases f <;> simp

/-! ### Operations over another B -/

theorem flag_withFlag_B {f : Flag} (h : f ≠ .B) (s : State) (b : Bool) : (s.withFlag .B b).flag f = s.flag f :=
  (flag_withFlag s .B f b (by decide)).trans (if_neg h)

theorem operandValue_withFlag (s : State) (f : Flag) (b : Bool) (o : ReadOperand) :
    operandValue (s.withFlag f b) o = operandValue s o := rfl

theorem withReg_withFlag (s : State) (r : Reg) (v : Byte) (f : Flag) (b : Bool) :
    (s.withFlag f b).withReg r v = (s.withReg r v).withFlag f b := by
  cases r <;> rfl

theorem copyTo_withFlag_B (r : Reg) (v : Byte) (s : State) (b : Bool) :
    copyTo r v (s.withFlag .B b) = (copyTo r v s).withFlag .B b := by
  rw [copyTo, withReg_withFlag]
  exact congrArg (s.withReg r v).withStatus (setNZ_setFlag_B _ v b)

theorem withArith_withFlag_B (s : State) (r : ArithResult) (b : Bool) :
    withArith (s.withFlag .B b) r = (withArith s r).withFlag .B b :=
  congrArg (s.withReg .A r.value).withStatus (setNVZC_setFlag_B s.p r b)

theorem compareWith_withFlag_B (r : Reg) (o : ReadOperand) (s : State) (b : Bool) :
    compareWith r o (s.withFlag .B b) = (compareWith r o s).withFlag .B b := by
  rw [compareWith, reg_withFlag, operandValue_withFlag]
  exact congrArg s.withStatus (compareStatus_setFlag_B s.p (s.reg r) (operandValue s o) b)

theorem shiftAt_withFlag_B (f : Byte → Bool → ShiftResult) (l : Location) (s : State) (b : Bool) :
    shiftAt f l (s.withFlag .B b) = (shiftAt f l s).withFlag .B b := by
  rw [shiftAt, flag_withFlag_B (by decide)]
  cases l with
  | accumulator => exact congrArg (s.withReg .A _).withStatus (shiftStatus_setFlag_B s.p (f s.a (s.flag .C)) b)
  | mem m =>
    exact congrArg (s.write (effectiveAddr s m) _).withStatus
      (shiftStatus_setFlag_B s.p (f (s.read (effectiveAddr s m)) (s.flag .C)) b)

theorem stepCell_withFlag_B (f : Byte → Byte) (m : MemOperand) (s : State) (b : Bool) :
    stepCell f m (s.withFlag .B b) = (stepCell f m s).withFlag .B b :=
  congrArg (s.write (effectiveAddr s m) (f (s.read (effectiveAddr s m)))).withStatus
    (setNZ_setFlag_B s.p (f (s.read (effectiveAddr s m))) b)

theorem withFlag_withFlag_B {f : Flag} (h : f ≠ .B) (s : State) (b c : Bool) :
    (s.withFlag .B b).withFlag f c = (s.withFlag f c).withFlag .B b :=
  congrArg s.withStatus (setFlag_setFlag_B h s.p b c)

theorem branchIf_withFlag (c : Bool) (d : Byte) (s : State) (f : Flag) (b : Bool) :
    branchIf c d (s.withFlag f b) = (branchIf c d s).withFlag f b := by
  cases c <;> rfl

theorem popStatus_withFlag_B (s : State) (b : Bool) : (s.withFlag .B b).popStatus = s.popStatus.withFlag .B b :=
  congrArg s.pop.2.withStatus (restoredStatus_setFlag_B s.p s.pop.1 b)

theorem returnFromBreak_withFlag_B (s : State) (b : Bool) :
    (s.withFlag .B b).returnFromBreak = s.returnFromBreak.withFlag .B b := by
  rw [State.returnFromBreak, popStatus_withFlag_B]
  rfl

theorem takeBreak_withFlag_B (s : State) (ret : Word) (b : Bool) :
    (s.withFlag .B b).takeBreak ret = (s.takeBreak ret).withFlag .B b := by
  rw [takeBreak_eq, takeBreak_eq, withFlag_p, pushedStatus_setFlag_B, setFlag_setFlag_B (by decide)]
  rfl

/-- A handler does the same with another B stored, and leaves that B. -/
theorem exec_withFlag_B {i : Instr} {s t : State} (b : Bool) (h : exec i s = .next t) :
    exec i (s.withFlag .B b) = .next (t.withFlag .B b) := by
  cases i with
  | lda | ldx | ldy | tax | tay | tsx | txa | txs | tya | and | ora | eor | inx | iny | dex | dey =>
    cases h
    exact congrArg Host.Outcome.next (copyTo_withFlag_B _ _ _ b)
  | pla =>
    cases h
    exact congrArg Host.Outcome.next (copyTo_withFlag_B .A s.pop.1 s.pop.2 b)
  | adc o | sbc o =>
    cases h
    simp (disch := decide) only [exec, execAdc, execSbc, flag_withFlag_B, operandValue_withFlag, withFlag_a, withArith_withFlag_B]
  | bit m =>
    cases h
    exact congrArg (fun p => Host.Outcome.next (s.withStatus p)) (bitStatus_setFlag_B s.p s.a _ b)
  | asl | lsr | rol | ror =>
    cases h
    exact congrArg Host.Outcome.next (shiftAt_withFlag_B _ _ s b)
  | inc | dec =>
    cases h
    exact congrArg Host.Outcome.next (stepCell_withFlag_B _ _ s b)
  | cmp | cpx | cpy =>
    cases h
    exact congrArg Host.Outcome.next (compareWith_withFlag_B _ _ s b)
  | bcc | bcs | beq | bne | bpl | bmi | bvc | bvs =>
    cases h
    simp (disch := decide) only [exec, execBcc, execBcs, execBeq, execBne, execBpl, execBmi, execBvc, execBvs, flag_withFlag_B,
      branchIf_withFlag]
  | clc | cld | cli | clv | sec | sed | sei =>
    cases h
    exact congrArg Host.Outcome.next (withFlag_withFlag_B (by decide) s b _)
  | php =>
    cases h
    exact congrArg (fun v => Host.Outcome.next ((s.push v).withFlag .B b)) (pushedStatus_setFlag_B s.p b)
  | plp =>
    cases h
    exact congrArg Host.Outcome.next (popStatus_withFlag_B s b)
  | brk =>
    cases h
    exact congrArg Host.Outcome.next (takeBreak_withFlag_B s _ b)
  | rti =>
    cases h
    exact congrArg Host.Outcome.next (returnFromBreak_withFlag_B s b)
  | sta | stx | sty | jmp | jsr | rts | pha | nop | invalid =>
    cases h
    rfl

/-- The fetch does not look at P. -/
theorem fetch_withFlag (s : State) (f : Flag) (b : Bool) :
    (s.withFlag f b).fetch.instr = s.fetch.instr ∧ (s.withFlag f b).fetch.after = s.fetch.after.withFlag f b := by
  have hinstr : (s.withFlag f b).fetch.instr = s.fetch.instr := by
    rw [fetch_instr, fetch_instr, fetch_raw, fetch_raw]
    rfl
  refine ⟨hinstr, ?_⟩
  rw [fetch_after, fetch_after, hinstr]
  rfl

/-- Settles O49: the fetch does not look at P, each handler does the same over another B (`exec_withFlag_B`), and B has no
writers. -/
theorem breakBitIsNeitherReadNorWritten : Obligations.BreakBitIsNeitherReadNorWritten := by
  intro s b
  obtain ⟨t, ht⟩ := step_next s
  obtain ⟨hinstr, hafter⟩ := fetch_withFlag s .B b
  refine ⟨t, ht, ?_, ?_⟩
  · rw [step, hinstr, hafter]
    exact exec_withFlag_B b ht
  · rw [onlyTheListedInstructionsWriteAFlag _ _ _ .B ht List.not_mem_nil]
    exact flag_congr (fetch_after_p s) .B

end Sys2Proof.Machine

/-! PROOFS. Reset over an empty memory and the run loop (70_reset_and_hazards.md R800, R814): fixed points, the halt at an illegal
opcode, and the policy. -/

namespace Sys2Proof.Machine

/-- Settles O57: the memory of the reset state lists nothing, so the vector and every other byte read 0. -/
theorem resetStateIsBootOfEmptyMemory : Obligations.ResetStateIsBootOfEmptyMemory := ⟨rfl, fun _ => rfl⟩

/-! ### Fixed points -/

theorem eq_of_sameRegisters {s t : State} (h : sameRegisters s t = true) (hmem : t.mem = s.mem) : t = s := by
  cases s
  cases t
  simp_all [sameRegisters]

/-- A step that writes no memory keeps it. -/
theorem step_keeps_mem {s t : State} (h : step s = .next t) (hreads : ∀ acc ∈ stepAccesses s, acc.isWrite = false) :
    t.mem = s.mem := by
  obtain ⟨u, hu, hmem⟩ := stepWritesExactlyItsAccesses s
  rw [h] at hu
  cases hu
  rw [hmem, foldl_apply_of_reads hreads]

theorem run_of_step_self {s : State} (h : step s = .next s) (n : Nat) : Host.Core.run core n s = .next s := by
  induction n with
  | zero => rfl
  | succ n ih => rw [run_succ h, ih]

/-- Settles O58: without writes memory is as before (the statement of O50), so the step answers its own state, and so does every
run. -/
theorem fixedPointIsNeverLeft : Obligations.FixedPointIsNeverLeft := by
  intro s t h hfix
  obtain ⟨hregs, hreads⟩ : sameRegisters s t = true ∧ ∀ acc ∈ stepAccesses s, acc.isWrite = false := by
    simpa [isFixedPoint] using hfix
  have hts : t = s := eq_of_sameRegisters hregs (step_keeps_mem h hreads)
  exact ⟨hts, run_of_step_self (hts ▸ h)⟩

/-! ### The policy -/

theorem hostRun_succ {policy : IllegalPolicy} {n : Nat} {s t : State} (h : step s = .next t) :
    hostRun policy (n + 1) s =
      if (report s).illegal && policy == .halt then (.illegal (report s), t)
      else if isFixedPoint s t then (.fixedPoint, t) else hostRun policy n t := by
  simp only [hostRun, h]

/-- Settles O59: by induction on the budget; the loop ends with the report of a step at an undefined opcode, which moves PC one
byte on and changes nothing else. -/
theorem haltPolicyStopsAtUndefinedOpcode : Obligations.HaltPolicyStopsAtUndefinedOpcode := by
  intro n s t r h
  induction n generalizing s with
  | zero => cases h
  | succ n ih =>
    obtain ⟨u, hu⟩ := step_next s
    rw [hostRun_succ hu] at h
    split at h
    case isTrue hillegal =>
      have hmem := (report_illegal_iff_mem s).mp (by simpa using hillegal)
      rw [step_of_mem_invalidOpcodes hmem] at hu
      cases hu
      cases h
      exact ⟨by simpa using hillegal, hmem, rfl, rfl⟩
    case isFalse =>
      split at h
      · cases h
      · exact ih u h

/-- Settles O60: by induction on the number of steps; where no illegal opcode is reported the loop does not look at the policy. -/
theorem policyMattersOnlyAtIllegalOpcodes : Obligations.PolicyMattersOnlyAtIllegalOpcodes := by
  intro n
  induction n with
  | zero => exact fun _ _ => rfl
  | succ n ih =>
    intro s ⟨hlegal, hrest⟩
    obtain ⟨t, ht⟩ := step_next s
    simp only [hostRun_succ ht, hlegal, Bool.false_and, Bool.false_eq_true, if_false, ih t (hrest t ht)]

end Sys2Proof.Machine
